-- ==== Sys2Proof/Word.lean ====
section
/-! DEFINITION. The words NFCBR moves: one byte on the bus and in every array, one half word in the
16-bit registers (00_scope.md R9, R11; 20_memory.md R41). -/

namespace Sys2Proof

/-- A byte of RAW, REC, a command or an 8-bit register. -/
abbrev Byte := BitVec 8

/-- An 8-bit address of the host register space (20_memory.md R41). -/
abbrev Addr := BitVec 8

/-- The contents of RAW_NBITS, EBL or CRC. -/
abbrev Half := BitVec 16

end Sys2Proof
end

