-- ==== Sys2Proof/Syntax.lean ====
section
/-! DEFINITION. The rows of spec/opcode_table.json as one inductive: the command bytes of format CMD
(30_encoding.md R59-R61) and the Data Format Field codes of format DFF (30_encoding.md R67). -/

namespace Sys2Proof

/-- The two formats of the opcode table: a byte written to CMD, or record byte 1 as DECODE reads it. -/
inductive Format where
  | cmd
  | dff
  deriving DecidableEq, Repr

/-- One constructor per row of the opcode table. The two rows that stand for more than one byte carry it. -/
inductive Instr where
  /-- REFRAME, 0x01 (41_reframer.md R88). -/
  | reframe
  /-- VALIDATE, 0x02 (42_validator.md R97). -/
  | validate
  /-- DECODE, 0x03 (43_decoder.md R107). -/
  | decode
  /-- RUN, 0x04 (40_control.md R82). -/
  | run
  /-- Every other command byte (40_control.md R77). -/
  | illegal (opcode : Byte)
  /-- Format 0x00 of DECODE's dispatch (43_decoder.md R110). -/
  | dffReserved
  /-- Format 0x01, URI with prefix http://www. (43_decoder.md R111). -/
  | dffUriHttpWww
  /-- Format 0x02, URI with prefix https://www. (43_decoder.md R111). -/
  | dffUriHttpsWww
  /-- Format 0x03, URI with prefix http:// (43_decoder.md R111). -/
  | dffUriHttp
  /-- Format 0x04, URI with prefix https:// (43_decoder.md R111). -/
  | dffUriHttps
  /-- Format 0x05, EPC (43_decoder.md R115). -/
  | dffEpc
  /-- Formats 0x06-0xFF (43_decoder.md R116). -/
  | dffUnknown (dff : Byte)
  deriving DecidableEq, Repr

end Sys2Proof
end

