-- ==== Sys2Proof/WellFormed.lean ====
section
/-! DEFINITION. Which instruction terms the encodings of 30_encoding.md can write: the two rows that
carry a byte exclude the bytes of the other rows of their format. -/

namespace Sys2Proof

/-- ILLEGAL excludes 0x01-0x04 (30_encoding.md R61); DFF_UNKNOWN is 0x06-0xFF (R67); every other row is one byte. -/
def Instr.wf : Instr → Bool
  | .reframe => true
  | .validate => true
  | .decode => true
  | .run => true
  | .illegal b => b = 0x00 || 0x05 ≤ b.toNat
  | .dffReserved => true
  | .dffUriHttpWww => true
  | .dffUriHttpsWww => true
  | .dffUriHttp => true
  | .dffUriHttps => true
  | .dffEpc => true
  | .dffUnknown f => 0x06 ≤ f.toNat

end Sys2Proof
end

