-- ==== Sys2Proof/Decode.lean ====
section
/-! DEFINITION. Decoding of a command byte (30_encoding.md R60, R61) and of a Data Format Field
(30_encoding.md R67), both total over the 256 bytes, and the encoder from the same tables. -/

namespace Sys2Proof

/-- Why a string of bytes gives no instruction. Every byte decodes (30_encoding.md R61, R67), so the one reason
is that there is none. -/
inductive DecodeError where
  | noByte
  deriving DecidableEq, Repr

/-- The command a byte written to CMD issues (30_encoding.md R60, R61). -/
def decodeCmd (b : Byte) : Instr :=
  if b = 0x01 then .reframe
  else if b = 0x02 then .validate
  else if b = 0x03 then .decode
  else if b = 0x04 then .run
  else .illegal b

/-- The row of DECODE's dispatch that record byte 1 selects (30_encoding.md R67). -/
def decodeDff (f : Byte) : Instr :=
  if f = 0x00 then .dffReserved
  else if f = 0x01 then .dffUriHttpWww
  else if f = 0x02 then .dffUriHttpsWww
  else if f = 0x03 then .dffUriHttp
  else if f = 0x04 then .dffUriHttps
  else if f = 0x05 then .dffEpc
  else .dffUnknown f

/-- Decoding in a given format: the instruction and the bytes after it. Every form is one byte long (30_encoding.md R70). -/
def decodeBytes (fmt : Format) (bytes : List Byte) : Except DecodeError (Instr × List Byte) :=
  match bytes with
  | [] => .error .noByte
  | b :: rest =>
    match fmt with
    | .cmd => .ok (decodeCmd b, rest)
    | .dff => .ok (decodeDff b, rest)

/-- The format an instruction's row has in the opcode table. -/
def Instr.format : Instr → Format
  | .reframe | .validate | .decode | .run | .illegal _ => .cmd
  | .dffReserved | .dffUriHttpWww | .dffUriHttpsWww | .dffUriHttp | .dffUriHttps | .dffEpc
  | .dffUnknown _ => .dff

/-- The byte of an instruction (30_encoding.md R60, R61, R67). -/
def encodeByte : Instr → Byte
  | .reframe => 0x01
  | .validate => 0x02
  | .decode => 0x03
  | .run => 0x04
  | .illegal b => b
  | .dffReserved => 0x00
  | .dffUriHttpWww => 0x01
  | .dffUriHttpsWww => 0x02
  | .dffUriHttp => 0x03
  | .dffUriHttps => 0x04
  | .dffEpc => 0x05
  | .dffUnknown f => f

/-- The bytes of an instruction. -/
def encode (i : Instr) : List Byte := [encodeByte i]

/-- The instruction of a byte given as a number with bit 0 its least significant bit. The byte is read in format CMD,
the one format the machine takes from outside: a format code and a command byte have the same numbers, and DECODE
alone reads a format code, out of REC (log 9). A number that is no byte is refused. -/
def decodeTableWord (nbits w : Nat) : Option Instr :=
  if nbits ≤ 8 ∧ w < 256 then some (decodeCmd (BitVec.ofNat 8 w)) else none

end Sys2Proof
end

