-- ==== Sys2Proof/Config.lean ====
section
/-! DEFINITION. The parameters of an implementation (00_scope.md R7, R8) and the free values the spec
leaves open (10_state.md R37; 92_eei_decisions.md D15). -/

namespace Sys2Proof

/-- The implementation parameters of 00_scope.md R7 with their reference values. The sizes of RAW and PAR are
derived from the capacity, as the table says. -/
structure Params where
  /-- P_RAW_CAP_BITS, the largest legal N. -/
  rawCapBits : Nat := 264
  /-- P_REC_BYTES. -/
  recBytes : Nat := 64
  /-- P_URI_INPLACE (43_decoder.md R112). -/
  uriInplace : Bool := true
  /-- P_MFR_TABLE (43_decoder.md R117). -/
  mfrTable : List Byte := [0xB7]
  deriving DecidableEq, Repr

/-- P_RAW_BYTES = ceil(P_RAW_CAP_BITS / 8) (00_scope.md R7). -/
def Params.rawBytes (P : Params) : Nat := (P.rawCapBits + 7) / 8

/-- P_PAR_SLOTS = floor(P_RAW_CAP_BITS / 8) (00_scope.md R7). -/
def Params.parSlots (P : Params) : Nat := P.rawCapBits / 8

/-- The largest effective bit length REFRAME can produce (41_reframer.md R91). -/
def Params.maxLength (P : Params) : Nat := 1 + 9 * (P.rawCapBits / 8) + P.rawCapBits % 8

/-- The constraint of 00_scope.md R8 and the three windows of at most 64 bytes the register map is defined for.
A parameter set that breaks it is no NFCBR (70_reset_and_hazards.md R146). -/
abbrev Params.Ok (P : Params) : Prop :=
  P.maxLength ≤ 8 * P.recBytes ∧ P.rawBytes ≤ 64 ∧ P.parSlots ≤ 64 ∧ P.recBytes ≤ 64

/-- The reference values (00_scope.md R7): the parameters exec and step run with (log 5). -/
def Config.params : Params := { }

/-- The free bytes a reset event leaves in RAW, PAR and REC: "a draw under no law" (10_state.md R37; log 3). -/
opaque Config.freeByte : Nat → Byte

/-- P_MFR_NAME, the vendor name of a recognised id, OPEN in the spec (92_eei_decisions.md D15; log 6). -/
opaque Config.mfrName : Byte → List Byte

end Sys2Proof
end

