-- ==== Sys2Proof/Machine/State.lean ====
section
/-! DEFINITION. The state of NFCBR (10_state.md R15) as plain data, the host's side of the bus beside it
(60_exceptions.md R128), the reasons a step stops, and the machine right after reset (10_state.md R36). -/

namespace Sys2Proof.Machine

/-- One of the byte arrays RAW, PAR, REC: the listed (index, byte) pairs. -/
abbrev Memory := List Host.Cell

/-- What an index that is not listed reads as. REFRAME step 1 writes this byte everywhere (41_reframer.md R88); that the
arrays also hold it at reset is the model's choice (log 2). -/
def Memory.unlisted : Byte := 0x00

/-- The canonical form: indices strictly rising, no entry equal to what an unlisted index reads as. -/
abbrev Memory.wf (m : Memory) : Prop :=
  m.Pairwise (fun x y => x.1 < y.1) ∧ ∀ c ∈ m, c.2 ≠ Memory.unlisted

/-- SEQ (10_state.md R24); the values 5, 6, 7 are never held (log 4). -/
inductive SeqState where
  | idle
  | reframed
  | validOk
  | validFail
  | decoded
  deriving DecidableEq, Repr

/-- VRES (10_state.md R22). -/
inductive VRes where
  | none
  | valid
  | incomplete
  | crcMismatch
  deriving DecidableEq, Repr

/-- CMDRES (10_state.md R25). -/
inductive CmdRes where
  | ok
  | illegalCmd
  | seqErr
  | lenErr
  deriving DecidableEq, Repr

/-- The codes a command error is raised with (40_control.md R79). -/
inductive CmdError where
  | illegalCmd
  | seqErr
  | lenErr
  deriving DecidableEq, Repr

/-- DV_KIND (10_state.md R28); the values 5, 6, 7 are never held (log 4). -/
inductive DvKind where
  | none
  | reserved
  | uri
  | epc
  | unknown
  deriving DecidableEq, Repr

/-- Who makes a bus access: the one host agent, or another (20_memory.md R56). -/
inductive Agent where
  | owner
  | other
  deriving DecidableEq, Repr

/-- What an access does: read, or write a byte (20_memory.md R47, R48). -/
inductive Dir where
  | read
  | write (v : Byte)
  deriving DecidableEq, Repr

/-- What reaches NFCBR from outside, one at a time: a bus access of some width in bytes, or a reset between two
accesses (70_reset_and_hazards.md R137). -/
inductive BusEvent where
  | access (agent : Agent) (bytes : Nat) (addr : Addr) (dir : Dir)
  | reset
  deriving DecidableEq, Repr

/-- The registers of the map of 20_memory.md R44, one constructor per row. -/
inductive HostReg where
  | raw (g : Nat)
  | par (g : Nat)
  | rawNbitsLo
  | rawNbitsHi
  | cmd
  | status
  | cmdRes
  | vres
  | eblLo
  | eblHi
  | crcLo
  | crcHi
  | dvKind
  | dvFmt
  | dvMfr
  | dvFlags
  | dvLen
  | dvTerm
  | record (i : Nat)
  | reserved
  deriving DecidableEq, Repr

/-- The state. The first sixteen fields are the tuple of 10_state.md R15; the last three are the model's own. -/
structure State where
  /-- RAW (10_state.md R17). -/
  raw : Memory
  /-- PAR (10_state.md R18): byte g holds latch g in bit 0. -/
  par : Memory
  /-- RAW_NBITS (10_state.md R19). -/
  rawNbits : Half
  /-- REC (10_state.md R20). -/
  record : Memory
  /-- EBL (10_state.md R21). -/
  ebl : Half
  /-- VRES (10_state.md R22). -/
  vres : VRes
  /-- CRC (10_state.md R23). -/
  crc : Half
  /-- SEQ (10_state.md R24). -/
  seq : SeqState
  /-- CMDRES (10_state.md R25). -/
  cmdRes : CmdRes
  /-- ERR_SEEN (10_state.md R26). -/
  errSeen : Bool
  /-- DV_KIND (10_state.md R28). -/
  dvKind : DvKind
  /-- DV_FMT (10_state.md R29). -/
  dvFmt : Byte
  /-- DV_MFR (10_state.md R30). -/
  dvMfr : Byte
  /-- MFR_KNOWN (10_state.md R31). -/
  mfrKnown : Bool
  /-- DV_LEN (10_state.md R32). -/
  dvLen : Byte
  /-- DV_TERM (10_state.md R32). -/
  dvTerm : Byte
  /-- The model's own: the host's events still to come, oldest first (log 1). -/
  pending : List BusEvent
  /-- The model's own: the bytes the host has read, oldest first (log 1). -/
  reads : List Byte
  /-- The model's own: how many free bytes resets have drawn (log 3). -/
  draws : Nat
  deriving DecidableEq, Repr

/-- Why the machine stops. -/
inductive Fault where
  /-- Raised by VALIDATE (alone or in RUN) when EBL is a multiple of 128 that is 0 or longer than REC, so that the
  CRC bytes it names are not in REC. No run holds such an EBL (10_state.md R21; 20_memory.md R42). Safe (log 10). -/
  | recordOutOfRange
  deriving DecidableEq, Repr

/-- What the model refuses to give a meaning. -/
inductive Refusal where
  /-- Raised by an arm of exec whose instruction has no meaning yet; none is left. Safe. -/
  | notModelled (mnemonic : String)
  /-- Raised by a bus access that is not one byte wide: "A model refuses any access of another width"
  (20_memory.md R49). Safe (log 12). -/
  | otherWidth (bytes : Nat)
  /-- Raised by an access of a second host agent: "a model refuses a second host agent" (20_memory.md R56). Safe (log 12). -/
  | secondAgent
  deriving DecidableEq, Repr

/-- The registers as every reset leaves them (10_state.md R36; 70_reset_and_hazards.md R137), over any contents of the three
arrays, which reset leaves unspecified (10_state.md R37), with nothing waiting on the bus. -/
def State.atReset (raw par record : Memory) : State where
  raw := raw
  par := par
  rawNbits := 0x0000
  record := record
  ebl := 0x0000
  vres := .none
  crc := 0x0000
  seq := .idle
  cmdRes := .ok
  errSeen := false
  dvKind := .none
  dvFmt := 0x00
  dvMfr := 0x00
  mfrKnown := false
  dvLen := 0x00
  dvTerm := 0x00
  pending := []
  reads := []
  draws := 0

/-- The machine right after reset. That the arrays hold zeros is the model's choice (DESIGN CHOICE, log 2). -/
def State.reset : State := State.atReset [] [] []

end Sys2Proof.Machine
end

