-- ==== Sys2Proof/Machine/Ops.lean ====
section
/-! DEFINITION. The shared operations: reading and writing the arrays (20_memory.md R42), the bit primitives of
REC (41_reframer.md R87), how a command ends (40_control.md R79, R80) and what a reset event does
(70_reset_and_hazards.md R137). NFCBR has no exception to take: a command error is its one failure outcome
(60_exceptions.md R122), so `raiseCmdError` stands where other machines enter a handler, and nothing returns (R127). -/

namespace Sys2Proof.Machine

/-- The byte at an index. -/
def Memory.read : Memory → Nat → Byte
  | [], _ => Memory.unlisted
  | c :: m, a => if c.1 = a then c.2 else Memory.read m a

/-- An entry put in front of the first larger index. -/
def Memory.insertCell : Memory → Nat → Byte → Memory
  | [], a, v => [(a, v)]
  | c :: m, a, v => if a < c.1 then (a, v) :: c :: m else c :: Memory.insertCell m a v

/-- The entries at every index but one. -/
def Memory.erase : Memory → Nat → Memory
  | [], _ => []
  | c :: m, a => if c.1 = a then Memory.erase m a else c :: Memory.erase m a

/-- Write one byte, keeping the canonical form. -/
def Memory.write (m : Memory) (a : Nat) (v : Byte) : Memory :=
  if v = Memory.unlisted then Memory.erase m a else Memory.insertCell (Memory.erase m a) a v

/-- The array of `n` bytes that holds `f i` at index `i`. -/
def Memory.ofFn (f : Nat → Byte) : Nat → Memory
  | 0 => []
  | n + 1 => Memory.write (Memory.ofFn f n) n (f n)

/-- The array whose every byte is 0x00 (41_reframer.md R88 step 1). -/
def Memory.zeroed : Memory := []

/-- The bytes at `lo, lo+1, ...`, `count` of them. -/
def Memory.slice (m : Memory) (lo count : Nat) : List Byte :=
  (List.range count).map (fun i => Memory.read m (lo + i))

/-- GetBit(o) = REC[o div 8][7 - (o mod 8)] (41_reframer.md R87). -/
def getBit (m : Memory) (o : Nat) : Bool :=
  (Memory.read m (o / 8)).getLsbD (7 - o % 8)

/-- SetBit(o, b): the bit is ORed in (41_reframer.md R87). -/
def setBit (m : Memory) (o : Nat) (b : Bool) : Memory :=
  Memory.write m (o / 8)
    (Memory.read m (o / 8) ||| ((BitVec.ofBool b).zeroExtend 8 <<< (7 - o % 8)))

/-- SetBit at successive offsets from `cur` on. -/
def writeBits (m : Memory) (cur : Nat) : List Bool → Memory
  | [] => m
  | b :: bits => writeBits (setBit m cur b) (cur + 1) bits

/-- The CMDRES code an error is recorded as (40_control.md R79). -/
def CmdError.result : CmdError → CmdRes
  | .illegalCmd => .illegalCmd
  | .seqErr => .seqErr
  | .lenErr => .lenErr

/-- raise CmdError(code): CMDRES <- code, ERR_SEEN <- 1, no other element changes (40_control.md R79). -/
def raiseCmdError (e : CmdError) (s : State) : State :=
  { s with cmdRes := e.result, errSeen := true }

/-- A command that raises no error ends with CMDRES <- OK and SEQ as its rule says; ERR_SEEN is left (40_control.md R80). -/
def finishCmd (q : SeqState) (s : State) : State :=
  { s with seq := q, cmdRes := .ok }

/-- Go on from the state a constituent command leaves; a stop stays a stop (40_control.md R82). -/
def andThen (r : Host.Outcome State Fault Refusal) (f : State → Host.Outcome State Fault Refusal) :
    Host.Outcome State Fault Refusal :=
  match r with
  | .next s => f s
  | .fault e => .fault e
  | .refused e => .refused e

/-- The free byte number `k` after the `draws` already made (10_state.md R37; log 3). -/
def drawByte (s : State) (k : Nat) : Byte := Config.freeByte (s.draws + k)

/-- A reset event: every register at its reset value, RAW, PAR and REC at free values (10_state.md R36, R37). The host's
own events and observations are no state of NFCBR and stay. -/
def resetEvent (P : Params) (s : State) : State :=
  { State.atReset
      (Memory.ofFn (drawByte s) P.rawBytes)
      (Memory.ofFn (fun g => drawByte s (P.rawBytes + g) &&& 0x01) P.parSlots)
      (Memory.ofFn (fun i => drawByte s (P.rawBytes + P.parSlots + i)) P.recBytes) with
    pending := s.pending
    reads := s.reads
    draws := s.draws + (P.rawBytes + P.parSlots + P.recBytes) }

end Sys2Proof.Machine
end

