-- ==== Sys2Proof/Machine/Operands.lean ====
section
/-! DEFINITION. What the commands read: the raw capture (30_encoding.md R62, R63), the record's length and fields
(30_encoding.md R65, R66) and the register map that names every host-visible byte (20_memory.md R44). -/

namespace Sys2Proof.Machine

/-- N = zext(RAW_NBITS) (30_encoding.md R63). -/
def bitCount (s : State) : Nat := s.rawNbits.toNat

/-- G = floor(N/8), the complete groups (30_encoding.md R62). -/
def groupCount (s : State) : Nat := bitCount s / 8

/-- r = N mod 8, the bits of the partial group (30_encoding.md R62). -/
def partialBits (s : State) : Nat := bitCount s % 8

/-- d(g,k) = RAW[g][k], bit k counted from the least significant (30_encoding.md R63). -/
def dataBit (s : State) (g k : Nat) : Bool := (Memory.read s.raw g).getLsbD k

/-- p(g) = PAR[g] (30_encoding.md R63). -/
def parityBit (s : State) (g : Nat) : Bool := (Memory.read s.par g).getLsbD 0

/-- The first `n` data bits of group `g`, in the order they are walked, least significant first (20_memory.md R43 item 2). -/
def groupBits (s : State) (g n : Nat) : List Bool := (List.range n).map (dataBit s g)

/-- A complete group on the wire: 8 data bits, then its parity bit (41_reframer.md R88 step 3). -/
def fullGroup (s : State) (g : Nat) : List Bool := groupBits s g 8 ++ [parityBit s g]

/-- The reconstructed frame as one bit string: start bit, complete groups, partial group (30_encoding.md R62). -/
def wireBits (s : State) : List Bool :=
  true :: ((List.range (groupCount s)).flatMap (fullGroup s)
    ++ groupBits s (groupCount s) (partialBits s))

/-- L = EBL. -/
def recordBits (s : State) : Nat := s.ebl.toNat

/-- n = L div 8 (30_encoding.md R65). -/
def recordBytes (s : State) : Nat := recordBits s / 8

/-- A record is complete exactly when L mod 128 = 0 (30_encoding.md R65). -/
def isComplete (s : State) : Bool := recordBits s % 128 = 0

/-- The record's two CRC bytes at n-2 and n-1 are bytes of REC (20_memory.md R42). -/
def crcInRange (P : Params) (s : State) : Bool := 2 ≤ recordBytes s && recordBytes s ≤ P.recBytes

/-- Manufacturer ID, record byte 0 (30_encoding.md R66). -/
def manufacturerByte (s : State) : Byte := Memory.read s.record 0

/-- Data Format Field, record byte 1 (30_encoding.md R66). -/
def formatByte (s : State) : Byte := Memory.read s.record 1

/-- The stored CRC low byte REC[n-2] (30_encoding.md R66). -/
def storedCrcLow (s : State) : Byte := Memory.read s.record (recordBytes s - 2)

/-- The stored CRC high byte REC[n-1] (30_encoding.md R66). -/
def storedCrcHigh (s : State) : Byte := Memory.read s.record (recordBytes s - 1)

/-- Bits 7:0 of a 16-bit register (20_memory.md R43 item 4). -/
def lowByte (h : Half) : Byte := h.extractLsb' 0 8

/-- Bits 15:8 of a 16-bit register (20_memory.md R43 item 4). -/
def highByte (h : Half) : Byte := h.extractLsb' 8 8

/-- The single-byte rows of the register map, by address (20_memory.md R44). -/
def controlMap : List (Addr × HostReg) :=
  [(0x80, .rawNbitsLo), (0x81, .rawNbitsHi), (0x84, .cmd), (0x85, .status), (0x86, .cmdRes),
   (0x87, .vres), (0x88, .eblLo), (0x89, .eblHi), (0x8A, .crcLo), (0x8B, .crcHi), (0x8C, .dvKind),
   (0x8D, .dvFmt), (0x8E, .dvMfr), (0x8F, .dvFlags), (0x90, .dvLen), (0x91, .dvTerm)]

/-- The row at an address outside the three windows; an address with no row is reserved (20_memory.md R44, R45). -/
def controlReg (a : Addr) : HostReg := (controlMap.lookup a).getD .reserved

/-- The register the map places at an address (20_memory.md R44, R45). -/
def regAt (P : Params) (a : Addr) : HostReg :=
  if a.toNat < P.rawBytes then .raw a.toNat
  else if 0x40 ≤ a.toNat ∧ a.toNat < 0x40 + P.parSlots then .par (a.toNat - 0x40)
  else if 0xC0 ≤ a.toNat ∧ a.toNat < 0xC0 + P.recBytes then .record (a.toNat - 0xC0)
  else controlReg a

end Sys2Proof.Machine
end

