-- ==== Sys2Proof/Machine/Flags.lean ====
section
/-! DEFINITION. The codes of the status fields and the packed registers (10_state.md R22, R24-R28, R31), the
sequencing table (40_control.md R78) and the manufacturer lookup (43_decoder.md R117). -/

namespace Sys2Proof.Machine

/-- SEQ's code (10_state.md R24). -/
def SeqState.code : SeqState → BitVec 3
  | .idle => 0
  | .reframed => 1
  | .validOk => 2
  | .validFail => 3
  | .decoded => 4

/-- VRES's code (10_state.md R22). -/
def VRes.code : VRes → BitVec 2
  | .none => 0
  | .valid => 1
  | .incomplete => 2
  | .crcMismatch => 3

/-- CMDRES's code (10_state.md R25). -/
def CmdRes.code : CmdRes → BitVec 2
  | .ok => 0
  | .illegalCmd => 1
  | .seqErr => 2
  | .lenErr => 3

/-- DV_KIND's code (10_state.md R28). -/
def DvKind.code : DvKind → BitVec 3
  | .none => 0
  | .reserved => 1
  | .uri => 2
  | .epc => 3
  | .unknown => 4

/-- STATUS: bits 2:0 SEQ, bit 3 ERR_SEEN, bits 7:4 zero (10_state.md R27). -/
def statusByte (s : State) : Byte :=
  (0 : BitVec 4) ++ BitVec.ofBool s.errSeen ++ s.seq.code

/-- DV_FLAGS: bit 0 MFR_KNOWN, bits 7:1 zero (10_state.md R31). -/
def dvFlagsByte (s : State) : Byte := (BitVec.ofBool s.mfrKnown).zeroExtend 8

/-- VALIDATE is legal in REFRAMED, VALID_OK and VALID_FAIL (40_control.md R78). -/
def validateLegal (q : SeqState) : Bool :=
  match q with
  | .reframed | .validOk | .validFail => true
  | .idle | .decoded => false

/-- DECODE is legal in VALID_OK alone (40_control.md R78). -/
def decodeLegal (q : SeqState) : Bool :=
  match q with
  | .validOk => true
  | .idle | .reframed | .validFail | .decoded => false

/-- MFR_KNOWN = 1 exactly when the id is in P_MFR_TABLE (43_decoder.md R117). -/
def mfrLookup (P : Params) (id : Byte) : Bool := P.mfrTable.contains id

/-- Every result of the previous transaction cleared (41_reframer.md R90). -/
def clearResults (s : State) : State :=
  { s with
    vres := .none
    crc := 0x0000
    dvKind := .none
    dvFmt := 0x00
    dvMfr := 0x00
    mfrKnown := false
    dvLen := 0x00
    dvTerm := 0x00 }

end Sys2Proof.Machine
end

