-- ==== Sys2Proof/Machine/RecordDecoder.lean ====
section
/-! DEFINITION. DECODE and the seven rows of its dispatch (43_decoder.md R107-R117, R119-R121). -/

namespace Sys2Proof.Machine

/-- The URI terminator byte (30_encoding.md R73). -/
def uriTerminator : Byte := 0xFE

/-- The line break code written over the terminator (30_encoding.md R73; PRESUMED, log 8). -/
def lineBreak : Byte := 0x0A

/-- The null terminator code (30_encoding.md R73; PRESUMED, log 8). -/
def nullByte : Byte := 0x00

/-- The first of `count` offsets from `p` on that holds the terminator, else the window's last offset 14
(43_decoder.md R111). -/
def scanTerminator (m : Memory) (p : Nat) : Nat → Nat
  | 0 => 14
  | count + 1 => if Memory.read m p = uriTerminator then p else scanTerminator m (p + 1) count

/-- `pos`: the scan of the 13-byte window REC[2..14] (43_decoder.md R111). -/
def uriPos (m : Memory) : Nat := scanTerminator m 2 13

/-- The in-place writes of a URI decode (43_decoder.md R112). -/
def uriRecord (P : Params) (m : Memory) : Memory :=
  if P.uriInplace then
    Memory.write (Memory.write m (uriPos m) lineBreak) (uriPos m + 1) nullByte
  else m

/-- The view of a format: its kind, payload length and terminator offset (10_state.md R32). -/
def setView (k : DvKind) (len term : Byte) (s : State) : State :=
  { s with dvKind := k, dvLen := len, dvTerm := term }

/-- Format 0x00: no payload (43_decoder.md R110). -/
def reservedArm (s : State) : State := setView .reserved 0 0 s

/-- Formats 0x01-0x04 (43_decoder.md R111, R112). -/
def uriArm (P : Params) (s : State) : State :=
  setView .uri (BitVec.ofNat 8 (uriPos s.record - 2)) (BitVec.ofNat 8 (uriPos s.record))
    { s with record := uriRecord P s.record }

/-- Format 0x05: 12 bytes from byte 2, whatever the record's length (43_decoder.md R115). -/
def epcArm (s : State) : State := setView .epc 12 0 s

/-- Formats 0x06-0xFF: every byte but the first two and the last two (43_decoder.md R116), in 8-bit arithmetic
(00_scope.md R11; log 14). -/
def unknownArm (s : State) : State := setView .unknown (BitVec.ofNat 8 (recordBytes s) - 4) 0 s

/-- The fields recorded for every format (43_decoder.md R108). -/
def commonFields (P : Params) (s : State) : State :=
  { s with
    dvMfr := manufacturerByte s
    mfrKnown := mfrLookup P (manufacturerByte s)
    dvFmt := formatByte s }

/-- The dispatch on the Data Format Field (43_decoder.md R107; 30_encoding.md R67). -/
def dispatchFormat (P : Params) (f : Byte) (s : State) : State :=
  if f = 0x00 then reservedArm s
  else if f.toNat ≤ 0x04 then uriArm P s
  else if f = 0x05 then epcArm s
  else unknownArm s

/-- DECODE when it is legal (43_decoder.md R107). -/
def decodeEffect (P : Params) (s : State) : State :=
  finishCmd .decoded (dispatchFormat P (formatByte s) (commonFields P s))

/-- DECODE for any parameters (43_decoder.md R107). -/
def decodeWith (P : Params) (s : State) : Host.Outcome State Fault Refusal :=
  if decodeLegal s.seq then .next (decodeEffect P s) else .next (raiseCmdError .seqErr s)

/-- DECODE, 0x03 (43_decoder.md R107). -/
def execDecode (s : State) : Host.Outcome State Fault Refusal := decodeWith Config.params s

/-- DFF_RESERVED: the arm of format 0x00 (43_decoder.md R110; log 9). -/
def execDffReserved (s : State) : Host.Outcome State Fault Refusal := .next (reservedArm s)

/-- DFF_URI_HTTP_WWW: the arm of format 0x01 (43_decoder.md R111; log 9). -/
def execDffUriHttpWww (s : State) : Host.Outcome State Fault Refusal :=
  .next (uriArm Config.params s)

/-- DFF_URI_HTTPS_WWW: the arm of format 0x02 (43_decoder.md R111; log 9). -/
def execDffUriHttpsWww (s : State) : Host.Outcome State Fault Refusal :=
  .next (uriArm Config.params s)

/-- DFF_URI_HTTP: the arm of format 0x03 (43_decoder.md R111; log 9). -/
def execDffUriHttp (s : State) : Host.Outcome State Fault Refusal :=
  .next (uriArm Config.params s)

/-- DFF_URI_HTTPS: the arm of format 0x04 (43_decoder.md R111; log 9). -/
def execDffUriHttps (s : State) : Host.Outcome State Fault Refusal :=
  .next (uriArm Config.params s)

/-- DFF_EPC: the arm of format 0x05 (43_decoder.md R115; log 9). -/
def execDffEpc (s : State) : Host.Outcome State Fault Refusal := .next (epcArm s)

/-- DFF_UNKNOWN: the arm of formats 0x06-0xFF, the same for each of them (43_decoder.md R116; log 9). -/
def execDffUnknown (_f : Byte) (s : State) : Host.Outcome State Fault Refusal :=
  .next (unknownArm s)

end Sys2Proof.Machine
end

