-- ==== Sys2Proof/Machine/Reframe.lean ====
section
/-! DEFINITION. REFRAME (41_reframer.md R88-R96). -/

namespace Sys2Proof.Machine

/-- The record REFRAME builds: every byte zeroed, then every bit of the frame at its offset (41_reframer.md R88 steps 1-4). -/
def reframedRecord (s : State) : Memory := writeBits Memory.zeroed 0 (wireBits s)

/-- The final bit cursor (41_reframer.md R88 step 5). -/
def reframedLength (s : State) : Nat := (wireBits s).length

/-- REFRAME when the length check passes (41_reframer.md R88, R90). -/
def reframeEffect (s : State) : State :=
  finishCmd .reframed
    (clearResults { s with
      record := reframedRecord s
      ebl := BitVec.ofNat 16 (reframedLength s) })

/-- REFRAME for any parameters (41_reframer.md R88, R89). -/
def reframeWith (P : Params) (s : State) : Host.Outcome State Fault Refusal :=
  if P.rawCapBits < bitCount s then .next (raiseCmdError .lenErr s)
  else .next (reframeEffect s)

/-- Re-extraction of data bit k of group g from a record (41_reframer.md R93). -/
def extractData (m : Memory) (g k : Nat) : Bool := getBit m (1 + 9 * g + k)

/-- Re-extraction of the parity bit of group g from a record (41_reframer.md R93). -/
def extractParity (m : Memory) (g : Nat) : Bool := getBit m (9 * g + 9)

/-- REFRAME, 0x01 (41_reframer.md R88). -/
def execReframe (s : State) : Host.Outcome State Fault Refusal := reframeWith Config.params s

end Sys2Proof.Machine
end

