-- ==== Sys2Proof/Machine/Crc.lean ====
section
/-! DEFINITION. CRC_A (42_validator.md R98), its parameters from general knowledge as the rule says
(PRESUMED, log 7), and the byte-wise update of 42_validator.md R104. -/

namespace Sys2Proof.Machine

/-- The initial value. -/
def crcInit : Half := 0x6363

/-- One turn of the inner loop of 42_validator.md R98. -/
def crcBit (c : Half) : Half :=
  if c.getLsbD 0 then (c >>> 1) ^^^ 0x8408 else c >>> 1

/-- The inner loop run `t` times. -/
def crcBits (c : Half) : Nat → Half
  | 0 => c
  | t + 1 => crcBits (crcBit c) t

/-- One byte of the outer loop: eight turns after the byte is XORed in (42_validator.md R98). -/
def crcByte (c : Half) (b : Byte) : Half := crcBits (c ^^^ b.zeroExtend 16) 8

/-- CRC_A of a string of bytes (42_validator.md R98). -/
def crcA (bytes : List Byte) : Half := bytes.foldl crcByte crcInit

/-- The byte-wise update (42_validator.md R104). -/
def crcByteWise (c : Half) (b : Byte) : Half :=
  let t0 : Byte := b ^^^ lowByte c
  let t : Byte := t0 ^^^ (t0 <<< 4)
  (c >>> 8) ^^^ (t.zeroExtend 16 <<< 8) ^^^ (t.zeroExtend 16 <<< 3) ^^^ (t.zeroExtend 16 >>> 4)

/-- CRC_A by the byte-wise update (42_validator.md R104). -/
def crcAByteWise (bytes : List Byte) : Half := bytes.foldl crcByteWise crcInit

/-- The CRC VALIDATE computes: over REC[0] to REC[n-3] (42_validator.md R99). -/
def recordCrc (s : State) : Half := crcA (Memory.slice s.record 0 (recordBytes s - 2))

end Sys2Proof.Machine
end

