-- ==== Sys2Proof/Machine/Validate.lean ====
section
/-! DEFINITION. VALIDATE (42_validator.md R97-R105). -/

namespace Sys2Proof.Machine

/-- An incomplete record: no CRC is computed (42_validator.md R101). -/
def markIncomplete (s : State) : State :=
  finishCmd .validFail { s with vres := .incomplete, crc := 0x0000 }

/-- The computed CRC against the stored bytes, low against n-2 and high against n-1 (42_validator.md R99). -/
def crcMatches (s : State) : Bool :=
  lowByte (recordCrc s) = storedCrcLow s && highByte (recordCrc s) = storedCrcHigh s

/-- A complete record: CRC holds the computed value, and the comparison decides (42_validator.md R97, R99). -/
def checkCrc (s : State) : State :=
  if crcMatches s then finishCmd .validOk { s with vres := .valid, crc := recordCrc s }
  else finishCmd .validFail { s with vres := .crcMismatch, crc := recordCrc s }

/-- VALIDATE for any parameters (42_validator.md R97). The fault is for an EBL that no run holds (log 10). -/
def validateWith (P : Params) (s : State) : Host.Outcome State Fault Refusal :=
  if validateLegal s.seq then
    if isComplete s then
      if crcInRange P s then .next (checkCrc s) else .fault .recordOutOfRange
    else .next (markIncomplete s)
  else .next (raiseCmdError .seqErr s)

/-- VALIDATE, 0x02 (42_validator.md R97). -/
def execValidate (s : State) : Host.Outcome State Fault Refusal := validateWith Config.params s

end Sys2Proof.Machine
end

