-- ==== Sys2Proof/Machine/Control.lean ====
section
/-! DEFINITION. RUN (40_control.md R82, R83), the illegal command bytes (40_control.md R77), and the meaning of every
instruction for any parameters (00_scope.md R7). -/

namespace Sys2Proof.Machine

/-- RUN for any parameters: REFRAME, then VALIDATE unless REFRAME failed, then DECODE unless the result is not Valid
(40_control.md R82). -/
def runWith (P : Params) (s : State) : Host.Outcome State Fault Refusal :=
  andThen (reframeWith P s) fun s1 =>
    if s1.cmdRes = .ok then
      andThen (validateWith P s1) fun s2 =>
        if s2.vres = .valid then decodeWith P s2 else .next s2
    else .next s1

/-- RUN, 0x04 (40_control.md R82). -/
def execRun (s : State) : Host.Outcome State Fault Refusal := runWith Config.params s

/-- ILLEGAL: CmdError(ILLEGAL_CMD), whatever the byte (40_control.md R77); no outcome records it (60_exceptions.md R123). -/
def execIllegal (_b : Byte) (s : State) : Host.Outcome State Fault Refusal :=
  .next (raiseCmdError .illegalCmd s)

/-- What an instruction does to a state. -/
abbrev Meanings := Instr → State → Host.Outcome State Fault Refusal

/-- The meaning of every instruction with the parameters as an argument (00_scope.md R7); `exec` is the one of
`Config.params`. -/
def execWith (P : Params) : Meanings
  | .reframe, s => reframeWith P s
  | .validate, s => validateWith P s
  | .decode, s => decodeWith P s
  | .run, s => runWith P s
  | .illegal b, s => execIllegal b s
  | .dffReserved, s => execDffReserved s
  | .dffUriHttpWww, s => .next (uriArm P s)
  | .dffUriHttpsWww, s => .next (uriArm P s)
  | .dffUriHttp, s => .next (uriArm P s)
  | .dffUriHttps, s => .next (uriArm P s)
  | .dffEpc, s => execDffEpc s
  | .dffUnknown f, s => execDffUnknown f s

end Sys2Proof.Machine
end

