-- ==== Sys2Proof/Machine/Dispatch.lean ====
section
/-! DEFINITION. One arm per row of the opcode table (40_control.md R76; 43_decoder.md R107). -/

namespace Sys2Proof.Machine

def exec (i : Instr) (s : State) : Host.Outcome State Fault Refusal :=
  match i with
  | .reframe => Sys2Proof.Machine.execReframe s
  | .validate => Sys2Proof.Machine.execValidate s
  | .decode => Sys2Proof.Machine.execDecode s
  | .run => Sys2Proof.Machine.execRun s
  | .illegal b => Sys2Proof.Machine.execIllegal b s
  | .dffReserved => Sys2Proof.Machine.execDffReserved s
  | .dffUriHttpWww => Sys2Proof.Machine.execDffUriHttpWww s
  | .dffUriHttpsWww => Sys2Proof.Machine.execDffUriHttpsWww s
  | .dffUriHttp => Sys2Proof.Machine.execDffUriHttp s
  | .dffUriHttps => Sys2Proof.Machine.execDffUriHttps s
  | .dffEpc => Sys2Proof.Machine.execDffEpc s
  | .dffUnknown f => Sys2Proof.Machine.execDffUnknown f s

end Sys2Proof.Machine
end

