-- ==== Sys2Proof/Machine/Bus.lean ====
section
/-! DEFINITION. The host bus: MemRead and MemWrite over the register map (20_memory.md R44-R48), the accesses a model
refuses (20_memory.md R49, R56) and the step that serves the host's next event (60_exceptions.md R128). -/

namespace Sys2Proof.Machine

/-- What a register reads as, computed from the current state (20_memory.md R47). -/
def readReg (s : State) (r : HostReg) : Byte :=
  match r with
  | .raw g => Memory.read s.raw g
  | .par g => (BitVec.ofBool (parityBit s g)).zeroExtend 8
  | .rawNbitsLo => lowByte s.rawNbits
  | .rawNbitsHi => highByte s.rawNbits
  | .cmd => 0x00
  | .status => statusByte s
  | .cmdRes => s.cmdRes.code.zeroExtend 8
  | .vres => s.vres.code.zeroExtend 8
  | .eblLo => lowByte s.ebl
  | .eblHi => highByte s.ebl
  | .crcLo => lowByte s.crc
  | .crcHi => highByte s.crc
  | .dvKind => s.dvKind.code.zeroExtend 8
  | .dvFmt => s.dvFmt
  | .dvMfr => s.dvMfr
  | .dvFlags => dvFlagsByte s
  | .dvLen => s.dvLen
  | .dvTerm => s.dvTerm
  | .record i => Memory.read s.record i
  | .reserved => 0x00

/-- MemRead(a, 1) for any parameters (20_memory.md R47). -/
def memReadWith (P : Params) (s : State) (a : Addr) : Byte := readReg s (regAt P a)

/-- MemRead(a, 1) at the reference parameters. -/
def memRead (s : State) (a : Addr) : Byte := memReadWith Config.params s a

/-- Issue(b): the command the byte decodes to, whole (40_control.md R76; 20_memory.md R53). -/
def issue (b : Byte) (s : State) : Host.Outcome State Fault Refusal := exec (decodeCmd b) s

/-- A write to a register: the input latches store, CMD issues the command by the meanings `M`, every other register
ignores it (20_memory.md R45, R46, R48). -/
def writeReg (M : Meanings) (r : HostReg) (v : Byte) (s : State) : Host.Outcome State Fault Refusal :=
  match r with
  | .raw g => .next { s with raw := Memory.write s.raw g v }
  | .par g => .next { s with par := Memory.write s.par g (v &&& 0x01) }
  | .rawNbitsLo => .next { s with rawNbits := highByte s.rawNbits ++ v }
  | .rawNbitsHi => .next { s with rawNbits := v ++ lowByte s.rawNbits }
  | .cmd => M (decodeCmd v) s
  | .status | .cmdRes | .vres | .eblLo | .eblHi | .crcLo | .crcHi | .dvKind | .dvFmt | .dvMfr
  | .dvFlags | .dvLen | .dvTerm | .record _ | .reserved => .next s

/-- MemWrite(a, 1, v) for any parameters and the meanings CMD issues by (20_memory.md R48). -/
def memWriteWith (P : Params) (M : Meanings) (s : State) (a : Addr) (v : Byte) :
    Host.Outcome State Fault Refusal :=
  writeReg M (regAt P a) v s

/-- MemWrite(a, 1, v) at the reference parameters. -/
def memWrite (s : State) (a : Addr) (v : Byte) : Host.Outcome State Fault Refusal :=
  memWriteWith Config.params exec s a v

/-- The host's read hands the byte over and changes nothing else (20_memory.md R52; 30_encoding.md R71). -/
def hostRead (v : Byte) (s : State) : State := { s with reads := s.reads ++ [v] }

/-- One one-byte access of the one host (20_memory.md R47, R48). -/
def serveAccess (P : Params) (M : Meanings) (a : Addr) (d : Dir) (s : State) :
    Host.Outcome State Fault Refusal :=
  match d with
  | .read => .next (hostRead (memReadWith P s a) s)
  | .write v => memWriteWith P M s a v

/-- One event: a reset between accesses (70_reset_and_hazards.md R137), or an access, refused when another agent makes it
(20_memory.md R56) or when it is not one byte wide (20_memory.md R49). -/
def serveEvent (P : Params) (M : Meanings) (e : BusEvent) (s : State) :
    Host.Outcome State Fault Refusal :=
  match e with
  | .reset => .next (resetEvent P s)
  | .access agent bytes a d =>
    if agent = .other then .refused .secondAgent
    else if bytes = 1 then serveAccess P M a d s
    else .refused (.otherWidth bytes)

/-- One step: the host's oldest waiting event is served; with none waiting nothing changes, since NFCBR "never acts on its
own: without a host write nothing changes" (60_exceptions.md R128). -/
def serveNext (P : Params) (M : Meanings) (s : State) : Host.Outcome State Fault Refusal :=
  match s.pending with
  | [] => .next s
  | e :: rest => serveEvent P M e { s with pending := rest }

/-- The host's one-byte write of `v` at `a`, `WR a, v` (30_encoding.md R71). -/
def hostWr (a : Addr) (v : Byte) : BusEvent := .access .owner 1 a (.write v)

/-- The host's one-byte read at `a`, `RD a` (30_encoding.md R71). -/
def hostRd (a : Addr) : BusEvent := .access .owner 1 a .read

/-- The address of CMD (20_memory.md R44). -/
def cmdAddr : Addr := 0x84

/-- The host about to write the byte `w` to CMD, ahead of every other event. -/
def placeCommand (w : Nat) (s : State) : State :=
  { s with pending := hostWr cmdAddr (BitVec.ofNat 8 w) :: s.pending }

end Sys2Proof.Machine
end

