-- ==== Sys2Proof/Machine/Step.lean ====
section
/-! DEFINITION. One step: one host bus access (00_scope.md R14; 20_memory.md R53). -/

namespace Sys2Proof.Machine

/-- One step of the machine at the reference parameters. -/
def step (s : State) : Host.Outcome State Fault Refusal :=
  Sys2Proof.Machine.serveNext Config.params Sys2Proof.Machine.exec s

/-- One step of the machine with the parameters as an argument (00_scope.md R7). -/
def stepWith (P : Params) (s : State) : Host.Outcome State Fault Refusal :=
  Sys2Proof.Machine.serveNext P (Sys2Proof.Machine.execWith P) s

/-- The state with a command about to be issued. NFCBR fetches nothing (20_memory.md R57): a command is a byte the host
writes to CMD, so the byte is put at the head of the host's waiting accesses (log 1). -/
def State.withFetchWord (s : State) (_nbits w : Nat) : State := Sys2Proof.Machine.placeCommand w s

end Sys2Proof.Machine
end

