-- ==== Sys2Proof/Machine/HostProgram.lean ====
section
/-! DEFINITION. Host programs: the notation of 30_encoding.md R71 and the expansions of its pseudo-instructions
(30_encoding.md R72). -/

namespace Sys2Proof.Machine

/-- One line of a host program (30_encoding.md R71, R72). -/
inductive HostLine where
  | wr (a : Addr) (v : Byte)
  | rd (a : Addr)
  | reframe
  | validate
  | decode
  | run
  | wr16 (a : Addr) (v : Half)
  | rd16 (a : Addr)
  | setN (v : Half)
  | loadRaw (bytes : List Byte)
  | loadPar (bits : List Bool)
  deriving DecidableEq, Repr

/-- The writes of successive bytes from an address on; addresses are 8 bits wide (log 15). -/
def storeFrom (base : Addr) : List Byte → List BusEvent
  | [] => []
  | v :: vs => hostWr base v :: storeFrom (base + 1) vs

/-- `WR16 a, v16`: the low byte at `a`, then the high byte at `a+1` (30_encoding.md R72). -/
def wr16Events (a : Addr) (v : Half) : List BusEvent :=
  [hostWr a (lowByte v), hostWr (a + 1) (highByte v)]

/-- The bus accesses a line stands for, in order (30_encoding.md R72). -/
def HostLine.expand : HostLine → List BusEvent
  | .wr a v => [hostWr a v]
  | .rd a => [hostRd a]
  | .reframe => [hostWr cmdAddr 0x01]
  | .validate => [hostWr cmdAddr 0x02]
  | .decode => [hostWr cmdAddr 0x03]
  | .run => [hostWr cmdAddr 0x04]
  | .wr16 a v => wr16Events a v
  | .rd16 a => [hostRd a, hostRd (a + 1)]
  | .setN v => wr16Events 0x80 v
  | .loadRaw bytes => storeFrom 0x00 bytes
  | .loadPar bits => storeFrom 0x40 (bits.map fun b => (BitVec.ofBool b).zeroExtend 8)

/-- The value `RD16` gives: the second byte read is the high one (30_encoding.md R72). -/
def rd16Value (first second : Byte) : Half := second ++ first

/-- The accesses of a program. -/
def expandProgram (p : List HostLine) : List BusEvent := p.flatMap HostLine.expand

/-- The host with a program to issue after what is already waiting. -/
def loadProgram (p : List HostLine) (s : State) : State :=
  { s with pending := s.pending ++ expandProgram p }

/-- `n` steps, stopping at the first stop. -/
def runSteps : Nat → State → Host.Outcome State Fault Refusal
  | 0, s => .next s
  | n + 1, s => andThen (step s) (runSteps n)

/-- `n` steps with the parameters as an argument (00_scope.md R7). -/
def runStepsWith (P : Params) : Nat → State → Host.Outcome State Fault Refusal
  | 0, s => .next s
  | n + 1, s => andThen (stepWith P s) (runStepsWith P n)

end Sys2Proof.Machine
end

