-- ==== Sys2Proof/Machine/Render.lean ====
section
/-! DEFINITION. The Decoded View and the renderings that are part of the observable contract (10_state.md R33;
30_encoding.md R74, R75; 43_decoder.md R113-R118). Characters are their codes (00_scope.md R12; PRESUMED, log 8). -/

namespace Sys2Proof.Machine

/-- What Render gives (43_decoder.md R118). -/
inductive Rendering where
  /-- No DECODE has run in this transaction. -/
  | noView
  /-- Failure(ReservedFormat): no payload string. -/
  | reservedFormat
  /-- Success with the character codes. -/
  | success (chars : List Byte)
  /-- A URI view whose format has no prefix: a state no run reaches (log 13). -/
  | noPrefix
  deriving DecidableEq, Repr

/-- The Decoded View (10_state.md R33). -/
structure DecodedView where
  kind : DvKind
  fmt : Byte
  mfr : Byte
  mfrKnown : Bool
  payload : List Byte
  deriving DecidableEq, Repr

/-- The payload REC[2], ..., REC[2 + DV_LEN - 1] (10_state.md R33). -/
def viewPayload (s : State) : List Byte := Memory.slice s.record 2 s.dvLen.toNat

/-- The Decoded View of the current transaction (10_state.md R33). -/
def decodedView (s : State) : DecodedView where
  kind := s.dvKind
  fmt := s.dvFmt
  mfr := s.dvMfr
  mfrKnown := s.mfrKnown
  payload := viewPayload s

/-- The implied prefix of a URI format, as the codes of 30_encoding.md R74. -/
def uriPrefix (f : Byte) : Option (List Byte) :=
  if f = 0x01 then some [0x68, 0x74, 0x74, 0x70, 0x3A, 0x2F, 0x2F, 0x77, 0x77, 0x77, 0x2E]
  else if f = 0x02 then some [0x68, 0x74, 0x74, 0x70, 0x73, 0x3A, 0x2F, 0x2F, 0x77, 0x77, 0x77, 0x2E]
  else if f = 0x03 then some [0x68, 0x74, 0x74, 0x70, 0x3A, 0x2F, 0x2F]
  else if f = 0x04 then some [0x68, 0x74, 0x74, 0x70, 0x73, 0x3A, 0x2F, 0x2F]
  else none

/-- digit(0..9) = '0'..'9', digit(10..15) = 'a'..'f' (30_encoding.md R75). -/
def hexDigit (d : BitVec 4) : Byte :=
  if d.toNat < 10 then 0x30 + d.zeroExtend 8 else 0x57 + d.zeroExtend 8

/-- The two characters of a byte, high nibble first (30_encoding.md R75; PRESUMED, log 8). -/
def hexByte (b : Byte) : List Byte := [hexDigit (b.extractLsb' 4 4), hexDigit (b.extractLsb' 0 4)]

/-- Hex(b0, ..., bm), no separators (30_encoding.md R75). -/
def hexString (bytes : List Byte) : List Byte := bytes.flatMap hexByte

/-- Render of the current view (43_decoder.md R118). -/
def render (s : State) : Rendering :=
  match s.dvKind with
  | .none => .noView
  | .reserved => .reservedFormat
  | .uri =>
    match uriPrefix s.dvFmt with
    | some p => .success (p ++ viewPayload s)
    | none => .noPrefix
  | .epc => .success (hexString (Memory.slice s.record 2 12))
  | .unknown => .success (hexString (viewPayload s))

/-- The word "unknown" (43_decoder.md R117, R118). -/
def unknownChars : List Byte := [0x75, 0x6E, 0x6B, 0x6E, 0x6F, 0x77, 0x6E]

/-- Manufacturer() for any P_MFR_NAME: the raw id and its name, or "unknown" (43_decoder.md R118; 00_scope.md R7). -/
def manufacturerWith (name : Byte → List Byte) (s : State) : Byte × List Byte :=
  (s.dvMfr, if s.mfrKnown then name s.dvMfr else unknownChars)

/-- Manufacturer() with the free P_MFR_NAME. -/
def manufacturer (s : State) : Byte × List Byte := manufacturerWith Config.mfrName s

end Sys2Proof.Machine
end

