-- ==== Sys2Proof/Safety.lean ====
section
/-! DEFINITION. What statements call a good state: the invariants of 10_state.md R38 with the bounds of R21, R23 and
R28 to R32, the bounds and the canonical form (log 17) of the arrays, and the fault bit of 60_exceptions.md R136; for any parameters (00_scope.md R7), and by their short names at the
reference values. -/

namespace Sys2Proof

open Sys2Proof.Machine

/-- An array holds nothing outside its indices (20_memory.md R42) and is in canonical form (log 17). -/
abbrev ArrayOk (m : Memory) (size : Nat) : Prop := Memory.wf m ∧ ∀ c ∈ m, c.1 < size

/-- The three arrays hold nothing outside their indices, and a parity latch holds one bit (10_state.md R17, R18, R20). -/
abbrev ArraysOkWith (P : Params) (s : State) : Prop :=
  ArrayOk s.raw P.rawBytes ∧ ArrayOk s.par P.parSlots ∧
  ArrayOk s.record P.recBytes ∧ ∀ c ∈ s.par, c.2 = 0x01

/-- The arrays at the reference sizes. -/
abbrev ArraysOk (s : State) : Prop := ArraysOkWith Config.params s

/-- The items of 10_state.md R38 about SEQ, VRES and DV_KIND; the last line is what they leave to VALID_FAIL: a view
exists in DECODED alone (10_state.md R28). -/
abbrev SequencerOk (s : State) : Prop :=
  (s.seq = .idle → s.vres = .none ∧ s.dvKind = .none ∧ s.ebl = 0) ∧
  (s.seq = .reframed → s.vres = .none ∧ s.dvKind = .none) ∧
  (s.seq = .validOk ↔ s.vres = .valid ∧ s.dvKind = .none) ∧
  (s.seq = .validFail ↔ s.vres = .incomplete ∨ s.vres = .crcMismatch) ∧
  (s.seq = .decoded → s.vres = .valid ∧ s.dvKind ≠ .none) ∧
  (s.dvKind ≠ .none → s.seq = .decoded)

/-- The length: at most the buffer (10_state.md R21, R38), at least the start bit once a record exists (41_reframer.md R91),
and complete when the record is Valid (42_validator.md R103). -/
abbrev LengthOk (P : Params) (s : State) : Prop :=
  s.ebl.toNat ≤ 8 * P.recBytes ∧
  (s.seq ≠ .idle → 1 ≤ s.ebl.toNat) ∧
  (s.vres = .valid → s.ebl.toNat % 128 = 0)

/-- The record's bits: zero past its end until DECODE (10_state.md R38), the start bit set (30_encoding.md R69). -/
abbrev RecordOk (P : Params) (s : State) : Prop :=
  (s.seq = .reframed ∨ s.seq = .validOk ∨ s.seq = .validFail →
    ∀ o < 8 * P.recBytes, s.ebl.toNat ≤ o → getBit s.record o = false) ∧
  (s.seq ≠ .idle → getBit s.record 0 = true)

/-- CRC is zero when no CRC was computed (10_state.md R23). -/
abbrev CrcOk (s : State) : Prop :=
  (s.vres = .none ∨ s.vres = .incomplete) → s.crc = 0x0000

/-- The Decoded View registers per DV_KIND (10_state.md R28 to R32). -/
abbrev ViewOk (P : Params) (s : State) : Prop :=
  (s.dvKind = .none →
    s.dvFmt = 0 ∧ s.dvMfr = 0 ∧ s.mfrKnown = false ∧ s.dvLen = 0 ∧ s.dvTerm = 0) ∧
  (s.dvKind = .reserved → s.dvFmt = 0 ∧ s.dvLen = 0 ∧ s.dvTerm = 0) ∧
  (s.dvKind = .uri → 1 ≤ s.dvFmt.toNat ∧ s.dvFmt.toNat ≤ 4 ∧ 2 ≤ s.dvTerm.toNat ∧
    s.dvTerm.toNat ≤ 14 ∧ s.dvLen.toNat = s.dvTerm.toNat - 2) ∧
  (s.dvKind = .epc → s.dvFmt = 5 ∧ s.dvLen = 12 ∧ s.dvTerm = 0) ∧
  (s.dvKind = .unknown → 6 ≤ s.dvFmt.toNat ∧ s.dvLen.toNat = s.ebl.toNat / 8 - 4 ∧ s.dvTerm = 0) ∧
  (s.dvKind ≠ .none → s.mfrKnown = mfrLookup P s.dvMfr)

/-- ERR_SEEN = 0 implies the last command ended with OK (10_state.md R38). -/
abbrev ErrorBitOk (s : State) : Prop := s.errSeen = false → s.cmdRes = .ok

/-- The invariant: every item of 10_state.md R38 and the bounds beside them. -/
structure StateInvWith (P : Params) (s : State) : Prop where
  arrays : ArraysOkWith P s
  sequencer : SequencerOk s
  length : LengthOk P s
  record : RecordOk P s
  crc : CrcOk s
  view : ViewOk P s
  errorBit : ErrorBitOk s

/-- The invariant at the reference values. -/
abbrev StateInv (s : State) : Prop := StateInvWith Config.params s

/-- No command was refused since reset (60_exceptions.md R136). -/
abbrev NoCommandRefused (s : State) : Prop := s.errSeen = false

/-- What the host can see of NFCBR at every address (20_memory.md R44). -/
def sameView (s t : State) : Prop := ∀ a : Addr, memRead s a = memRead t a

end Sys2Proof
end

