-- ==== Sys2Proof/Certificates/Slice0/Obligations.lean ====
section
/-! DEFINITION. The statements for the provers, from the numbered rules of spec/. -/

open Sys2Proof Sys2Proof.Machine

/-- The codes of 30_encoding.md R60, R61 and R67, written out. -/
def Obligations.TabledBytesDecodeAsTabled : Prop :=
  (decodeCmd 0x01 = .reframe ∧ decodeCmd 0x02 = .validate ∧ decodeCmd 0x03 = .decode ∧
    decodeCmd 0x04 = .run ∧ decodeCmd 0x00 = .illegal 0x00 ∧ decodeCmd 0x05 = .illegal 0x05 ∧
    decodeCmd 0xFF = .illegal 0xFF) ∧
  (decodeDff 0x00 = .dffReserved ∧ decodeDff 0x01 = .dffUriHttpWww ∧
    decodeDff 0x02 = .dffUriHttpsWww ∧ decodeDff 0x03 = .dffUriHttp ∧
    decodeDff 0x04 = .dffUriHttps ∧ decodeDff 0x05 = .dffEpc ∧
    decodeDff 0x06 = .dffUnknown 0x06 ∧ decodeDff 0xFF = .dffUnknown 0xFF)

/-- Decoding and encoding are inverse in both directions, in both formats (30_encoding.md R61, R67, R70). -/
def Obligations.DecodeAndEncodeAgree : Prop :=
  (∀ (i : Instr) (rest : List Byte), i.wf = true →
    decodeBytes i.format (encode i ++ rest) = .ok (i, rest)) ∧
  (∀ (fmt : Format) (b : Byte) (rest : List Byte), ∃ i : Instr,
    decodeBytes fmt (b :: rest) = .ok (i, rest) ∧ i.wf = true ∧ i.format = fmt ∧ encode i = [b])

/-- The second and third clauses are 40_control.md R77 for every byte it names, with its example from reset, whatever the
arrays hold. The first is the meaning of ILLEGAL for every byte: for the ill-formed terms with 0x01 to 0x04 it is the
model's choice (log 16). -/
def Obligations.IllegalCommandChangesOnlyTheErrorFields : Prop :=
  (∀ (b : Byte) (s : State),
    exec (.illegal b) s = .next { s with cmdRes := .illegalCmd, errSeen := true }) ∧
  (∀ (b : Byte) (s : State), b = 0x00 ∨ 0x05 ≤ b.toNat →
    issue b s = .next { s with cmdRes := .illegalCmd, errSeen := true }) ∧
  (∀ raw par record : Memory, ∃ t : State,
    memWrite (State.atReset raw par record) 0x84 0x00 = .next t ∧
    memRead t 0x85 = 0x08 ∧ memRead t 0x86 = 0x01)

/-- When the host's next access writes a byte to CMD, the step is the command it decodes to, on the state with that
access taken off (20_memory.md R53; 40_control.md R76); `withFetchWord` puts exactly that access first (log 1). -/
def Obligations.StepRunsTheCommandWritten : Prop :=
  (∀ (s : State) (b : Byte) (rest : List BusEvent), s.pending = hostWr 0x84 b :: rest →
    (decodeCmd b).wf = true ∧ step s = exec (decodeCmd b) { s with pending := rest }) ∧
  (∀ (s : State) (w : Nat) (i : Instr), decodeTableWord 8 w = some i →
    step (s.withFetchWord 8 w) = exec i s)

/-- A read hands one byte over and changes nothing else, a write is MemWrite, and with nothing waiting nothing changes
(20_memory.md R48, R52; 60_exceptions.md R128). That the host's accesses wait in `pending` is log 1. -/
def Obligations.StepServesReadsWritesAndIdles : Prop :=
  (∀ (s : State) (a : Addr) (rest : List BusEvent), s.pending = hostRd a :: rest →
    step s = .next { s with pending := rest, reads := s.reads ++ [memRead s a] }) ∧
  (∀ (s : State) (a : Addr) (v : Byte) (rest : List BusEvent), s.pending = hostWr a v :: rest →
    step s = memWrite { s with pending := rest } a v) ∧
  (∀ s : State, s.pending = [] → step s = .next s)

/-- 20_memory.md R49, R56: the accesses a model refuses, each under its own name (log 12). -/
def Obligations.OtherWidthsAndAgentsAreRefused : Prop :=
  ∀ (s : State) (agent : Agent) (bytes : Nat) (a : Addr) (d : Dir) (rest : List BusEvent),
    s.pending = .access agent bytes a d :: rest →
    (agent = .other → step s = .refused .secondAgent) ∧
    (agent = .owner → bytes ≠ 1 → step s = .refused (.otherWidth bytes))

/-- 70_reset_and_hazards.md R137: a reset event leaves every register at the value of 10_state.md R36, and the arrays at
contents it does not fix, inside their bounds. The free contents are log 3, the canonical form of the arrays log 17. -/
def Obligations.ResetEventRestoresTheRegisters : Prop :=
  ∀ (s : State) (rest : List BusEvent), s.pending = .reset :: rest →
    ∃ (t : State) (raw par record : Memory) (d : Nat), step s = .next t ∧ ArraysOk t ∧
      t = { State.atReset raw par record with pending := rest, reads := s.reads, draws := d }

/-- 10_state.md R36, whatever RAW, PAR and REC hold, which the rule leaves unspecified. -/
def Obligations.ResetValues : Prop :=
  (∃ raw par record : Memory, State.reset = State.atReset raw par record) ∧
  ∀ raw par record : Memory, ∀ s : State, s = State.atReset raw par record →
    s.rawNbits = 0x0000 ∧ s.ebl = 0x0000 ∧ s.vres = .none ∧ s.crc = 0x0000 ∧ s.seq = .idle ∧
    s.cmdRes = .ok ∧ s.errSeen = false ∧ s.dvKind = .none ∧ s.dvFmt = 0x00 ∧ s.dvMfr = 0x00 ∧
    s.mfrKnown = false ∧ s.dvLen = 0x00 ∧ s.dvTerm = 0x00 ∧
    memRead s 0x85 = 0x00 ∧ memRead s 0x86 = 0x00 ∧ memRead s 0x87 = 0x00

/-- The invariant holds after reset, whatever the arrays hold inside their bounds (10_state.md R38; 20_memory.md R42) and in
their canonical form, which is the model's choice (log 17). -/
def Obligations.InvariantHoldsAtReset : Prop :=
  StateInv State.reset ∧
  ∀ raw par record : Memory, ArraysOk (State.atReset raw par record) →
    StateInv (State.atReset raw par record)

/-- Every step keeps the invariant: the items of 10_state.md R38, the one-bit latches of R18, the bounds of R21, R23 and R28
to R32, the array bounds of 20_memory.md R42, the start bit of 30_encoding.md R69, a length of at least 1 once a record
exists (41_reframer.md R91) and a complete length when it is Valid (42_validator.md R103). That the arrays are canonical
lists is the model's choice (log 17). -/
def Obligations.EveryStepKeepsTheInvariant : Prop :=
  ∀ s t : State, StateInv s → step s = .next t → StateInv t

/-- From a state that meets the invariant no step faults, and only an access of another width or another agent is refused
(60_exceptions.md R122; 20_memory.md R49, R56). -/
def Obligations.InvariantStatesNeverFault : Prop :=
  ∀ s : State, StateInv s →
    (∃ t : State, step s = .next t) ∨
    (∃ (agent : Agent) (bytes : Nat) (a : Addr) (d : Dir) (rest : List BusEvent) (r : Refusal),
      s.pending = .access agent bytes a d :: rest ∧ (agent = .other ∨ bytes ≠ 1) ∧
      step s = .refused r)

/-- The table of 40_control.md R78: where it says SEQ_ERR, that and nothing else; where it says legal, no SEQ_ERR. -/
def Obligations.SequencingTable : Prop :=
  (∀ s : State, s.seq = .idle ∨ s.seq = .decoded →
    exec .validate s = .next { s with cmdRes := .seqErr, errSeen := true }) ∧
  (∀ s : State, s.seq ≠ .validOk →
    exec .decode s = .next { s with cmdRes := .seqErr, errSeen := true }) ∧
  (∀ s t : State, s.seq = .reframed ∨ s.seq = .validOk ∨ s.seq = .validFail →
    exec .validate s = .next t → t.cmdRes = .ok) ∧
  (∀ s t : State, s.seq = .validOk → exec .decode s = .next t → t.cmdRes = .ok) ∧
  (∀ s : State, ∃ t u : State, exec .reframe s = .next t ∧ t.cmdRes ≠ .seqErr ∧
    exec .run s = .next u ∧ u.cmdRes ≠ .seqErr)

/-- 40_control.md R79 and R80: a command that ends with an error changes CMDRES and ERR_SEEN alone, and one that ends with
OK leaves ERR_SEEN. -/
def Obligations.CommandsEndInErrorOrSuccess : Prop :=
  ∀ (b : Byte) (s t : State), issue b s = .next t →
    (t.cmdRes ≠ .ok ∧ t = { s with cmdRes := t.cmdRes, errSeen := true }) ∨
    (t.cmdRes = .ok ∧ t.errSeen = s.errSeen)

/-- 10_state.md R26: every failed command sets ERR_SEEN, no event but a reset clears it, and a reset does. -/
def Obligations.ErrorBitIsSticky : Prop :=
  (∀ (b : Byte) (s t : State), issue b s = .next t → t.cmdRes ≠ .ok → t.errSeen = true) ∧
  (∀ s t : State, s.errSeen = true → s.pending.head? ≠ some .reset → step s = .next t →
    t.errSeen = true) ∧
  (∀ s t : State, s.pending.head? = some .reset → step s = .next t → t.errSeen = false)

/-- 60_exceptions.md R136: a host program that no reset interrupts and that ends with ERR_SEEN = 0 had no command refused,
after any number of its accesses. -/
def Obligations.AnErrorFreeRunRefusedNothing : Prop :=
  ∀ (n : Nat) (s t : State), StateInv s → BusEvent.reset ∉ s.pending →
    runSteps n s = .next t → NoCommandRefused t →
    ∀ k ≤ n, ∃ u : State, runSteps k s = .next u ∧ NoCommandRefused u ∧ u.cmdRes = .ok

/-- 41_reframer.md R89: a capture over the capacity is refused before anything is written, by REFRAME and by RUN. -/
def Obligations.OverlongCaptureIsRefused : Prop :=
  ∀ s : State, Config.params.rawCapBits < s.rawNbits.toNat →
    exec .reframe s = .next { s with cmdRes := .lenErr, errSeen := true } ∧
    exec .run s = .next { s with cmdRes := .lenErr, errSeen := true }

/-- 41_reframer.md R90 and the frame of REFRAME: a successful REFRAME clears the previous results, writes REC, EBL, SEQ and
CMDRES, and leaves everything else. -/
def Obligations.ReframeClearsTheOldResults : Prop :=
  ∀ s : State, s.rawNbits.toNat ≤ Config.params.rawCapBits →
    ∃ t : State, exec .reframe s = .next t ∧
      t = { s with
        record := t.record, ebl := t.ebl, vres := .none, crc := 0x0000, seq := .reframed, cmdRes := .ok,
        dvKind := .none, dvFmt := 0x00, dvMfr := 0x00, mfrKnown := false, dvLen := 0x00, dvTerm := 0x00 }

/-- 41_reframer.md R91, for every parameter set that meets 00_scope.md R8, and the complete lengths at reference. -/
def Obligations.ReframeEffectiveBitLength : Prop :=
  (∀ (P : Params) (s : State), P.Ok → s.rawNbits.toNat ≤ P.rawCapBits →
    ∃ t : State, reframeWith P s = .next t ∧
      t.ebl.toNat = 1 + 9 * (s.rawNbits.toNat / 8) + s.rawNbits.toNat % 8 ∧
      t.ebl.toNat ≤ P.maxLength ∧ P.maxLength ≤ 8 * P.recBytes ∧
      (t.ebl.toNat - 1) % 9 = s.rawNbits.toNat % 8 ∧ (t.ebl.toNat - 1) % 9 ≠ 8) ∧
  (∀ s : State, s.rawNbits.toNat ≤ 264 →
    ∃ t : State, exec .reframe s = .next t ∧ t.ebl.toNat ≤ 298 ∧
      (s.rawNbits.toNat % 8 = 0 → t.ebl.toNat = 1 + 9 * (s.rawNbits.toNat / 8)) ∧
      (t.ebl.toNat = 128 ↔ s.rawNbits.toNat = 113) ∧ (t.ebl.toNat = 256 ↔ s.rawNbits.toNat = 227) ∧
      t.ebl.toNat ≠ 384 ∧ t.ebl.toNat ≠ 512)

/-- 41_reframer.md R92: every bit of the record a successful REFRAME leaves. -/
def Obligations.ReframeClosedForm : Prop :=
  ∀ s : State, s.rawNbits.toNat ≤ Config.params.rawCapBits →
    ∃ t : State, exec .reframe s = .next t ∧
      t.ebl.toNat = 1 + 9 * (s.rawNbits.toNat / 8) + s.rawNbits.toNat % 8 ∧
      ∀ o < 8 * Config.params.recBytes,
        getBit t.record o =
          if o = 0 then true
          else if o ≤ 9 * (s.rawNbits.toNat / 8) then
            if (o - 1) % 9 < 8 then (Memory.read s.raw ((o - 1) / 9)).getLsbD ((o - 1) % 9)
            else (Memory.read s.par ((o - 1) / 9)).getLsbD 0
          else if o < t.ebl.toNat then
            (Memory.read s.raw (s.rawNbits.toNat / 8)).getLsbD (o - 1 - 9 * (s.rawNbits.toNat / 8))
          else false

/-- 41_reframer.md R93: re-extraction from a reframed record recovers the capture, and what REFRAME does not read (bits of
RAW[G] above r - 1, latches at G and above) is not in the record. -/
def Obligations.ReframeRoundTrip : Prop :=
  ∀ s : State, s.rawNbits.toNat ≤ Config.params.rawCapBits →
    ∃ t : State, exec .reframe s = .next t ∧
      (∀ g < s.rawNbits.toNat / 8,
        (∀ k < 8, extractData t.record g k = (Memory.read s.raw g).getLsbD k) ∧
        extractParity t.record g = (Memory.read s.par g).getLsbD 0) ∧
      (∀ k < s.rawNbits.toNat % 8,
        extractData t.record (s.rawNbits.toNat / 8) k
          = (Memory.read s.raw (s.rawNbits.toNat / 8)).getLsbD k) ∧
      (∀ (g : Nat) (latch : Byte), s.rawNbits.toNat / 8 ≤ g → ∃ u : State,
        exec .reframe { s with par := Memory.write s.par g latch } = .next u ∧ u.record = t.record) ∧
      (∀ b : Byte,
        (∀ k < s.rawNbits.toNat % 8,
          b.getLsbD k = (Memory.read s.raw (s.rawNbits.toNat / 8)).getLsbD k) → ∃ u : State,
        exec .reframe { s with raw := Memory.write s.raw (s.rawNbits.toNat / 8) b } = .next u ∧
          u.record = t.record)

/-- 41_reframer.md R94: the start bit, and so bit 7 of the first byte. -/
def Obligations.ReframeSetsTheStartBit : Prop :=
  ∀ s : State, s.rawNbits.toNat ≤ Config.params.rawCapBits →
    ∃ t : State, exec .reframe s = .next t ∧ getBit t.record 0 = true ∧
      (Memory.read t.record 0).getLsbD 7 = true

/-- 41_reframer.md R95: nothing past the record's end, and nothing but the capture's own bits in it. -/
def Obligations.ReframeDependsOnTheCaptureAlone : Prop :=
  (∀ s : State, s.rawNbits.toNat ≤ Config.params.rawCapBits →
    ∃ t : State, exec .reframe s = .next t ∧
      (∀ o, t.ebl.toNat ≤ o → getBit t.record o = false) ∧
      (∀ i, (t.ebl.toNat - 1) / 8 < i → Memory.read t.record i = 0x00)) ∧
  (∀ s s' : State, s.rawNbits.toNat ≤ Config.params.rawCapBits → s'.rawNbits = s.rawNbits →
    (∀ g < s.rawNbits.toNat / 8,
      Memory.read s'.raw g = Memory.read s.raw g ∧
      (Memory.read s'.par g).getLsbD 0 = (Memory.read s.par g).getLsbD 0) →
    (∀ k < s.rawNbits.toNat % 8,
      (Memory.read s'.raw (s.rawNbits.toNat / 8)).getLsbD k
        = (Memory.read s.raw (s.rawNbits.toNat / 8)).getLsbD k) →
    ∃ t t' : State, exec .reframe s = .next t ∧ exec .reframe s' = .next t' ∧
      t'.record = t.record ∧ t'.ebl = t.ebl)

/-- 70_reset_and_hazards.md R138: the first command after reset, whatever RAW, PAR and REC hold. -/
def Obligations.FirstCommandAfterReset : Prop :=
  ∀ (raw par record : Memory) (s : State), s = State.atReset raw par record →
    exec .validate s = .next { s with cmdRes := .seqErr, errSeen := true } ∧
    exec .decode s = .next { s with cmdRes := .seqErr, errSeen := true } ∧
    ∃ t u : State, exec .reframe s = .next t ∧ exec .run s = .next u ∧
      t.ebl = 0x0001 ∧ Memory.read t.record 0 = 0x80 ∧
      (∀ i, i ≠ 0 → Memory.read t.record i = 0x00) ∧
      u = { t with vres := .incomplete, seq := .validFail }

/-- 42_validator.md R101: a length that is no multiple of 128 is Incomplete, whatever REC holds. -/
def Obligations.ValidateIncomplete : Prop :=
  ∀ s : State, s.seq = .reframed ∨ s.seq = .validOk ∨ s.seq = .validFail →
    s.ebl.toNat % 128 ≠ 0 →
    exec .validate s =
      .next { s with vres := .incomplete, crc := 0x0000, seq := .validFail, cmdRes := .ok }

/-- 42_validator.md R99: the CRC over REC[0] to REC[n-3], its low byte against REC[n-2] and its high byte against REC[n-1]. -/
def Obligations.ValidateComparesTheStoredCrc : Prop :=
  ∀ s : State, s.seq = .reframed ∨ s.seq = .validOk ∨ s.seq = .validFail →
    s.ebl.toNat % 128 = 0 → 128 ≤ s.ebl.toNat → s.ebl.toNat ≤ 8 * Config.params.recBytes →
    ∃ c : Half, c = crcA (Memory.slice s.record 0 (s.ebl.toNat / 8 - 2)) ∧
      exec .validate s = .next
        (if c.extractLsb' 0 8 = Memory.read s.record (s.ebl.toNat / 8 - 2) ∧
            c.extractLsb' 8 8 = Memory.read s.record (s.ebl.toNat / 8 - 1) then
          { s with vres := .valid, crc := c, seq := .validOk, cmdRes := .ok }
        else { s with vres := .crcMismatch, crc := c, seq := .validFail, cmdRes := .ok })

/-- 42_validator.md R103: when the result is Incomplete, Valid or a mismatch, by the stored CRC read as one value. -/
def Obligations.ValidateCharacterisation : Prop :=
  ∀ s : State, s.seq = .reframed ∨ s.seq = .validOk ∨ s.seq = .validFail →
    1 ≤ s.ebl.toNat → s.ebl.toNat ≤ 8 * Config.params.recBytes →
    ∃ t : State, exec .validate s = .next t ∧
      (t.vres = .incomplete ↔ s.ebl.toNat % 128 ≠ 0) ∧
      (s.ebl.toNat % 128 = 0 →
        (t.vres = .valid ↔
          Memory.read s.record (s.ebl.toNat / 8 - 1) ++ Memory.read s.record (s.ebl.toNat / 8 - 2)
            = crcA (Memory.slice s.record 0 (s.ebl.toNat / 8 - 2))) ∧
        (t.vres = .crcMismatch ↔
          Memory.read s.record (s.ebl.toNat / 8 - 1) ++ Memory.read s.record (s.ebl.toNat / 8 - 2)
            ≠ crcA (Memory.slice s.record 0 (s.ebl.toNat / 8 - 2))))

/-- 42_validator.md R102, with the frame of R100: a legal VALIDATE writes VRES, CRC, SEQ and CMDRES alone, and none writes
REC. -/
def Obligations.ValidateNeverMutatesTheRecord : Prop :=
  (∀ s t : State, s.seq = .reframed ∨ s.seq = .validOk ∨ s.seq = .validFail →
    exec .validate s = .next t →
    t = { s with vres := t.vres, crc := t.crc, seq := t.seq, cmdRes := t.cmdRes }) ∧
  (∀ s t : State, exec .validate s = .next t → t.record = s.record)

/-- 40_control.md R86: VALIDATE issued again changes nothing. -/
def Obligations.RepeatedValidateGivesTheSameState : Prop :=
  ∀ s t : State, s.seq = .reframed ∨ s.seq = .validOk ∨ s.seq = .validFail →
    exec .validate s = .next t → exec .validate t = .next t

/-- The model's own stop (log 10): a length whose CRC bytes are not in REC. No rule gives VALIDATE an effect there, since no
run holds such a length (10_state.md R21; 20_memory.md R42). -/
def Obligations.ValidateStopsOnALengthNoRunHolds : Prop :=
  ∀ s : State, s.seq = .reframed ∨ s.seq = .validOk ∨ s.seq = .validFail →
    s.ebl.toNat % 128 = 0 → s.ebl.toNat = 0 ∨ 8 * Config.params.recBytes < s.ebl.toNat →
    exec .validate s = .fault .recordOutOfRange

/-- 42_validator.md R105: a record whose CRC bytes are stored high byte first is a mismatch unless they are equal. -/
def Obligations.SwappedCrcBytesMismatch : Prop :=
  ∀ s : State, s.seq = .reframed ∨ s.seq = .validOk ∨ s.seq = .validFail →
    s.ebl.toNat % 128 = 0 → 128 ≤ s.ebl.toNat → s.ebl.toNat ≤ 8 * Config.params.recBytes →
    Memory.read s.record (s.ebl.toNat / 8 - 2) ≠ Memory.read s.record (s.ebl.toNat / 8 - 1) →
    Memory.read s.record (s.ebl.toNat / 8 - 2) ++ Memory.read s.record (s.ebl.toNat / 8 - 1)
      = crcA (Memory.slice s.record 0 (s.ebl.toNat / 8 - 2)) →
    ∃ t : State, exec .validate s = .next t ∧ t.vres = .crcMismatch ∧ t.seq = .validFail

/-- The check values of 42_validator.md R98, whose parameters are general knowledge (log 7). -/
def Obligations.CrcCheckValues : Prop :=
  crcA [0x00, 0x00] = 0x1EA0 ∧ crcA [0x12, 0x34] = 0xCF26 ∧
  crcA [0x31, 0x32, 0x33, 0x34, 0x35, 0x36, 0x37, 0x38, 0x39] = 0xBF05

/-- 42_validator.md R104: the byte-wise update equals the bit loop, byte for byte. -/
def Obligations.ByteWiseCrcEqualsTheBitLoop : Prop :=
  (∀ (c : Half) (b : Byte), crcByteWise c b = crcByte c b) ∧
  (∀ bytes : List Byte, crcAByteWise bytes = crcA bytes)

/-- 43_decoder.md R108 and R109: the fields of every format, and the frame of DECODE. -/
def Obligations.DecodeWritesTheViewAlone : Prop :=
  ∀ s : State, s.seq = .validOk →
    ∃ t : State, exec .decode s = .next t ∧
      t.dvMfr = Memory.read s.record 0 ∧
      t.mfrKnown = Config.params.mfrTable.contains (Memory.read s.record 0) ∧
      t.dvFmt = Memory.read s.record 1 ∧
      t = { s with
        record := t.record, seq := .decoded, cmdRes := .ok, dvKind := t.dvKind, dvFmt := t.dvFmt,
        dvMfr := t.dvMfr, mfrKnown := t.mfrKnown, dvLen := t.dvLen, dvTerm := t.dvTerm } ∧
      (t.dvKind ≠ .uri → t.record = s.record) ∧
      (t.dvKind = .uri → ∀ i, i ≠ t.dvTerm.toNat → i ≠ t.dvTerm.toNat + 1 →
        Memory.read t.record i = Memory.read s.record i)

/-- The dispatch of 30_encoding.md R67 and the lengths of 10_state.md R32, for each format byte. -/
def Obligations.DecodeKindFollowsTheFormatByte : Prop :=
  ∀ s : State, s.seq = .validOk → 128 ≤ s.ebl.toNat → s.ebl.toNat ≤ 8 * Config.params.recBytes →
    ∃ t : State, exec .decode s = .next t ∧
      (Memory.read s.record 1 = 0x00 → t.dvKind = .reserved ∧ t.dvLen = 0 ∧ t.dvTerm = 0) ∧
      (1 ≤ (Memory.read s.record 1).toNat → (Memory.read s.record 1).toNat ≤ 4 →
        t.dvKind = .uri ∧ 2 ≤ t.dvTerm.toNat ∧ t.dvTerm.toNat ≤ 14 ∧
        t.dvLen.toNat = t.dvTerm.toNat - 2) ∧
      (Memory.read s.record 1 = 0x05 → t.dvKind = .epc ∧ t.dvLen = 12 ∧ t.dvTerm = 0) ∧
      (6 ≤ (Memory.read s.record 1).toNat →
        t.dvKind = .unknown ∧ t.dvLen.toNat = s.ebl.toNat / 8 - 4 ∧ t.dvTerm = 0)

/-- 43_decoder.md R107: DECODE is the row its format byte selects, run after the common fields and before the end. That the
rows of format DFF are these arms is the model's choice (log 9). -/
def Obligations.DecodeRunsTheRowOfItsFormat : Prop :=
  ∀ s : State, s.seq = .validOk →
    ∃ u : State,
      exec (decodeDff (Memory.read s.record 1))
        { s with
          dvMfr := Memory.read s.record 0
          mfrKnown := Config.params.mfrTable.contains (Memory.read s.record 0)
          dvFmt := Memory.read s.record 1 } = .next u ∧
      exec .decode s = .next { u with seq := .decoded, cmdRes := .ok }

/-- 43_decoder.md R110, R115, R116: the arms that write no byte, whole, for every state (log 9, log 14). DFF_UNKNOWN is
stated for every byte: for the ill-formed terms below 0x06, which R116 does not name, it is the model's choice (log 16). -/
def Obligations.ReservedEpcAndUnknownRowsSetTheView : Prop :=
  ∀ s : State,
    exec .dffReserved s = .next { s with dvKind := .reserved, dvLen := 0, dvTerm := 0 } ∧
    exec .dffEpc s = .next { s with dvKind := .epc, dvLen := 12, dvTerm := 0 } ∧
    ∀ f : Byte, exec (.dffUnknown f) s = .next
      { s with dvKind := .unknown, dvLen := BitVec.ofNat 8 (s.ebl.toNat / 8) - 4, dvTerm := 0 }

/-- 43_decoder.md R111: the terminator, for each of the four URI rows, and their frame (log 9). -/
def Obligations.UriRowsFindTheFirstTerminator : Prop :=
  ∀ i ∈ ([.dffUriHttpWww, .dffUriHttpsWww, .dffUriHttp, .dffUriHttps] : List Instr), ∀ s : State,
    ∃ t : State, exec i s = .next t ∧
      t = { s with record := t.record, dvKind := .uri, dvLen := t.dvLen, dvTerm := t.dvTerm } ∧
      2 ≤ t.dvTerm.toNat ∧ t.dvTerm.toNat ≤ 14 ∧ t.dvLen.toNat = t.dvTerm.toNat - 2 ∧
      (∀ p, 2 ≤ p → p < t.dvTerm.toNat → Memory.read s.record p ≠ 0xFE) ∧
      (t.dvTerm.toNat < 14 → Memory.read s.record t.dvTerm.toNat = 0xFE)

/-- 43_decoder.md R112 with P_URI_INPLACE true, the reference value (log 5): each URI row writes two bytes at the offset
the scan computes, and every other byte reads as before. The two codes are general knowledge (log 8). -/
def Obligations.UriRowsWriteTwoBytesInPlace : Prop :=
  ∀ i ∈ ([.dffUriHttpWww, .dffUriHttpsWww, .dffUriHttp, .dffUriHttps] : List Instr), ∀ s : State,
    ∃ t : State, exec i s = .next t ∧ t.dvTerm.toNat = uriPos s.record ∧
      Memory.read t.record (uriPos s.record) = 0x0A ∧
      Memory.read t.record (uriPos s.record + 1) = 0x00 ∧
      ∀ j, j ≠ uriPos s.record → j ≠ uriPos s.record + 1 →
        Memory.read t.record j = Memory.read s.record j

/-- 43_decoder.md R112 for either value of P_URI_INPLACE: false writes nothing to REC, and the view, its payload and the
rendering do not depend on the value. -/
def Obligations.InPlaceParameterTouchesOnlyRec : Prop :=
  ∀ (P : Params) (s : State), s.seq = .validOk →
    ∃ t u : State,
      decodeWith { P with uriInplace := true } s = .next t ∧
      decodeWith { P with uriInplace := false } s = .next u ∧
      u.record = s.record ∧ t = { u with record := t.record } ∧
      viewPayload t = viewPayload u ∧ render t = render u

/-- 43_decoder.md R113, R114: the rendering of each URI format, from the record as it was before DECODE. -/
def Obligations.UriRendering : Prop :=
  ∀ (s : State) (f : Byte) (chars : List Byte), s.seq = .validOk → Memory.read s.record 1 = f →
    (f, chars) ∈ ([(0x01, [0x68, 0x74, 0x74, 0x70, 0x3A, 0x2F, 0x2F, 0x77, 0x77, 0x77, 0x2E]),
      (0x02, [0x68, 0x74, 0x74, 0x70, 0x73, 0x3A, 0x2F, 0x2F, 0x77, 0x77, 0x77, 0x2E]),
      (0x03, [0x68, 0x74, 0x74, 0x70, 0x3A, 0x2F, 0x2F]),
      (0x04, [0x68, 0x74, 0x74, 0x70, 0x73, 0x3A, 0x2F, 0x2F])] : List (Byte × List Byte)) →
    ∃ t : State, exec .decode s = .next t ∧
      render t = .success (chars ++ Memory.slice s.record 2 (t.dvTerm.toNat - 2))

/-- 43_decoder.md R115, R116: the hexadecimal renderings. -/
def Obligations.HexRenderings : Prop :=
  ∀ s : State, s.seq = .validOk → 128 ≤ s.ebl.toNat → s.ebl.toNat ≤ 8 * Config.params.recBytes →
    ∃ t : State, exec .decode s = .next t ∧
      (Memory.read s.record 1 = 0x05 →
        render t = .success (hexString (Memory.slice s.record 2 12)) ∧
        (hexString (Memory.slice s.record 2 12)).length = 24) ∧
      (6 ≤ (Memory.read s.record 1).toNat →
        render t = .success (hexString (Memory.slice s.record 2 (s.ebl.toNat / 8 - 4))))

/-- 43_decoder.md R119: DECODE of a validated record ends with OK, and its rendering fails exactly for format 0x00. -/
def Obligations.OnlyTheReservedFormatFails : Prop :=
  ∀ s : State, s.seq = .validOk →
    ∃ t : State, exec .decode s = .next t ∧ t.cmdRes = .ok ∧
      (render t = .reservedFormat ↔ Memory.read s.record 1 = 0x00) ∧
      (Memory.read s.record 1 ≠ 0x00 → ∃ chars, render t = .success chars)

/-- 30_encoding.md R75: every byte gives its two lowercase digits, high nibble first (log 8), with no separators. -/
def Obligations.HexDigitsOfAByte : Prop :=
  hexString [] = [] ∧
  (∀ (b : Byte) (bs : List Byte), hexString (b :: bs) = hexByte b ++ hexString bs) ∧
  (∀ b : Byte, hexByte b = [hexDigit (b.extractLsb' 4 4), hexDigit (b.extractLsb' 0 4)]) ∧
  hexByte 0x09 = [0x30, 0x39] ∧ hexByte 0xAF = [0x61, 0x66] ∧ hexByte 0x1B = [0x31, 0x62] ∧
  ∀ d : BitVec 4, (hexDigit d).toNat = if d.toNat < 10 then 48 + d.toNat else 87 + d.toNat

/-- 43_decoder.md R117: the lookup is the table's, changes nothing but MFR_KNOWN, and never fails the decode. -/
def Obligations.ManufacturerLookupIsInformative : Prop :=
  (∀ (P : Params) (table : List Byte) (s : State), s.seq = .validOk →
    ∃ t u : State, decodeWith P s = .next t ∧ decodeWith { P with mfrTable := table } s = .next u ∧
      (u.mfrKnown = true ↔ Memory.read s.record 0 ∈ table) ∧ u = { t with mfrKnown := u.mfrKnown }) ∧
  (∀ id : Byte, mfrLookup Config.params id = true ↔ id = 0xB7) ∧
  (∀ s : State, manufacturer s =
    (s.dvMfr, if s.mfrKnown = true then Config.mfrName s.dvMfr
      else [0x75, 0x6E, 0x6B, 0x6E, 0x6F, 0x77, 0x6E]))

/-- 43_decoder.md R121, 40_control.md R78: after DECODE neither DECODE nor VALIDATE runs, and neither changes the view. -/
def Obligations.NothingRunsAgainAfterDecode : Prop :=
  ∀ s t : State, s.seq = .validOk → exec .decode s = .next t →
    exec .decode t = .next { t with cmdRes := .seqErr, errSeen := true } ∧
    exec .validate t = .next { t with cmdRes := .seqErr, errSeen := true }

/-- 40_control.md R82: RUN of a capture inside the capacity completes in every state, ends decoded or rejected as the record
is, and leaves the input latches and ERR_SEEN. -/
def Obligations.RunCompletes : Prop :=
  ∀ s : State, s.rawNbits.toNat ≤ Config.params.rawCapBits →
    ∃ t : State, exec .run s = .next t ∧ t.cmdRes = .ok ∧
      t = { s with
        record := t.record, ebl := t.ebl, vres := t.vres, crc := t.crc, seq := t.seq, cmdRes := t.cmdRes,
        dvKind := t.dvKind, dvFmt := t.dvFmt, dvMfr := t.dvMfr, mfrKnown := t.mfrKnown,
        dvLen := t.dvLen, dvTerm := t.dvTerm } ∧
      ((t.vres = .valid ∧ t.seq = .decoded ∧ t.dvKind ≠ .none) ∨
        ((t.vres = .incomplete ∨ t.vres = .crcMismatch) ∧ t.seq = .validFail ∧ t.dvKind = .none))

/-- 40_control.md R83: RUN is the three commands issued one after the other, stopping where the pipeline stops. -/
def Obligations.RunEqualsTheThreeCommands : Prop :=
  ∀ (s t : State) (rest : List BusEvent),
    step { s with pending := hostWr 0x84 0x04 :: rest } = .next t →
    (t.cmdRes ≠ .ok → step { s with pending := hostWr 0x84 0x01 :: rest } = .next t) ∧
    (t.cmdRes = .ok → t.vres ≠ .valid →
      runSteps 2 { s with pending := hostWr 0x84 0x01 :: hostWr 0x84 0x02 :: rest } = .next t) ∧
    (t.cmdRes = .ok → t.vres = .valid →
      runSteps 3 { s with
        pending := hostWr 0x84 0x01 :: hostWr 0x84 0x02 :: hostWr 0x84 0x03 :: rest } = .next t)

/-- 40_control.md R84, 70_reset_and_hazards.md R139: a transaction keeps nothing of the one before: two machines with the same
input latches end RUN in the same state, but for ERR_SEEN and the host's own fields, and the host then reads the same at
every address when ERR_SEEN was the same. -/
def Obligations.TransactionForgetsThePast : Prop :=
  ∀ s s' t t' : State, s.rawNbits.toNat ≤ Config.params.rawCapBits →
    s'.raw = s.raw → s'.par = s.par → s'.rawNbits = s.rawNbits →
    exec .run s = .next t → exec .run s' = .next t' →
    t' = { t with errSeen := s'.errSeen, pending := s'.pending, reads := s'.reads, draws := s'.draws } ∧
    (s'.errSeen = s.errSeen → sameView t t')

/-- 70_reset_and_hazards.md R142: a latch written after REFRAME changes no result of VALIDATE or DECODE. -/
def Obligations.LatchesAreSampledAtReframe : Prop :=
  ∀ (s t : State) (raw par : Memory) (n : Half),
    (exec .validate s = .next t →
      exec .validate { s with raw := raw, par := par, rawNbits := n }
        = .next { t with raw := raw, par := par, rawNbits := n }) ∧
    (exec .decode s = .next t →
      exec .decode { s with raw := raw, par := par, rawNbits := n }
        = .next { t with raw := raw, par := par, rawNbits := n })

/-- 20_memory.md R44, R47: what the host reads at every mapped address, and 10_state.md R22, R24, R25, R27, R28, R31, R34. -/
def Obligations.RegisterMapReads : Prop :=
  ∀ s : State,
    (∀ g < 33, memRead s (BitVec.ofNat 8 g) = Memory.read s.raw g ∧
      memRead s (BitVec.ofNat 8 (0x40 + g))
        = if (Memory.read s.par g).getLsbD 0 = true then 0x01 else 0x00) ∧
    (∀ i < 64, memRead s (BitVec.ofNat 8 (0xC0 + i)) = Memory.read s.record i) ∧
    memRead s 0x81 ++ memRead s 0x80 = s.rawNbits ∧ memRead s 0x84 = 0x00 ∧
    (memRead s 0x85).toNat
      = (match s.seq with
          | .idle => 0 | .reframed => 1 | .validOk => 2 | .validFail => 3 | .decoded => 4)
        + (if s.errSeen = true then 8 else 0) ∧
    memRead s 0x86 = (match s.cmdRes with
      | .ok => 0x00 | .illegalCmd => 0x01 | .seqErr => 0x02 | .lenErr => 0x03) ∧
    memRead s 0x87 = (match s.vres with
      | .none => 0x00 | .valid => 0x01 | .incomplete => 0x02 | .crcMismatch => 0x03) ∧
    memRead s 0x89 ++ memRead s 0x88 = s.ebl ∧ memRead s 0x8B ++ memRead s 0x8A = s.crc ∧
    memRead s 0x8C = (match s.dvKind with
      | .none => 0x00 | .reserved => 0x01 | .uri => 0x02 | .epc => 0x03 | .unknown => 0x04) ∧
    memRead s 0x8D = s.dvFmt ∧ memRead s 0x8E = s.dvMfr ∧
    memRead s 0x8F = (if s.mfrKnown = true then 0x01 else 0x00) ∧
    memRead s 0x90 = s.dvLen ∧ memRead s 0x91 = s.dvTerm

/-- 20_memory.md R45: reserved addresses read zero and ignore writes, and so do the reserved bits of mapped registers. -/
def Obligations.ReservedAddressesAndBits : Prop :=
  (∀ (s : State) (a : Addr) (v : Byte),
    (0x21 ≤ a.toNat ∧ a.toNat ≤ 0x3F) ∨ (0x61 ≤ a.toNat ∧ a.toNat ≤ 0x7F) ∨
      a = 0x82 ∨ a = 0x83 ∨ (0x92 ≤ a.toNat ∧ a.toNat ≤ 0xBF) →
    memRead s a = 0x00 ∧ memWrite s a v = .next s) ∧
  (∀ (s : State) (a : Addr) (v : Byte), 0x40 ≤ a.toNat → a.toNat ≤ 0x60 →
    (memRead s a).toNat < 2 ∧ memWrite s a v = memWrite s a (v &&& 0x01)) ∧
  (∀ s : State, (memRead s 0x85).toNat < 16 ∧ (memRead s 0x86).toNat < 4 ∧
    (memRead s 0x87).toNat < 4 ∧ (memRead s 0x8C).toNat < 8 ∧ (memRead s 0x8F).toNat < 2)

/-- 20_memory.md R46: a write to a read-only register does nothing. -/
def Obligations.ReadOnlyRegistersIgnoreWrites : Prop :=
  ∀ (s : State) (a : Addr) (v : Byte),
    (0x85 ≤ a.toNat ∧ a.toNat ≤ 0x91) ∨ 0xC0 ≤ a.toNat → memWrite s a v = .next s

/-- 10_state.md R17 to R19, 20_memory.md R48: an input latch reads back what was written, for PAR bit 0 of it, no other state
changes, and no other address reads differently. -/
def Obligations.LatchWritesReadBack : Prop :=
  ∀ (s : State) (a : Addr) (v : Byte),
    a.toNat ≤ 0x20 ∨ (0x40 ≤ a.toNat ∧ a.toNat ≤ 0x60) ∨ a = 0x80 ∨ a = 0x81 →
    ∃ t : State, memWrite s a v = .next t ∧
      t = { s with raw := t.raw, par := t.par, rawNbits := t.rawNbits } ∧
      memRead t a = (if 0x40 ≤ a.toNat ∧ a.toNat ≤ 0x60 then v &&& 0x01 else v) ∧
      (∀ b : Addr, b ≠ a → memRead t b = memRead s b)

/-- 70_reset_and_hazards.md R144, with its example: RAW_NBITS holds one new and one old byte between its two writes. -/
def Obligations.RawNbitsIsWrittenInTwoBytes : Prop :=
  ∀ (s : State) (v : Byte),
    memWrite s 0x80 v = .next { s with rawNbits := s.rawNbits.extractLsb' 8 8 ++ v } ∧
    memWrite s 0x81 v = .next { s with rawNbits := v ++ s.rawNbits.extractLsb' 0 8 } ∧
    (s.rawNbits = 0x0108 → ∃ t u : State, memWrite s 0x80 0x71 = .next t ∧
      t.rawNbits = 0x0171 ∧ exec .reframe t = .next u ∧ u.cmdRes = .lenErr)

/-- 30_encoding.md R72: SETN and WR16 to RAW_NBITS load the count in two accesses, and RD16 of EBL reads it back. -/
def Obligations.HostSetsTheCountAndReadsWords : Prop :=
  (∀ (s : State) (v : Half) (rest : List BusEvent),
    runSteps 2 { s with pending := HostLine.expand (.setN v) ++ rest }
      = .next { s with rawNbits := v, pending := rest }) ∧
  (∀ (s : State) (rest : List BusEvent),
    ∃ first second : Byte,
      runSteps 2 { s with pending := HostLine.expand (.rd16 0x88) ++ rest }
        = .next { s with pending := rest, reads := s.reads ++ [first, second] } ∧
      rd16Value first second = s.ebl)

/-- 30_encoding.md R72: LOADRAW and LOADPAR load the latches they name, in order, and nothing else. -/
def Obligations.HostLoadsTheLatches : Prop :=
  (∀ (s : State) (bytes : List Byte) (rest : List BusEvent), bytes.length ≤ 33 →
    ∃ t : State,
      runSteps bytes.length { s with pending := HostLine.expand (.loadRaw bytes) ++ rest } = .next t ∧
      t = { s with raw := t.raw, pending := rest } ∧
      ∀ g, Memory.read t.raw g = if g < bytes.length then bytes.getD g 0 else Memory.read s.raw g) ∧
  (∀ (s : State) (bits : List Bool) (rest : List BusEvent), bits.length ≤ 33 →
    ∃ t : State,
      runSteps bits.length { s with pending := HostLine.expand (.loadPar bits) ++ rest } = .next t ∧
      t = { s with par := t.par, pending := rest } ∧
      ∀ g, (Memory.read t.par g).getLsbD 0
        = if g < bits.length then bits.getD g false else (Memory.read s.par g).getLsbD 0)

/-- 00_scope.md R7: the machine the other statements speak of is the machine of any parameters at the reference values. -/
def Obligations.ReferenceMachineIsTheInstanceAtTheReferenceValues : Prop :=
  (∀ (i : Instr) (s : State), exec i s = execWith Config.params i s) ∧
  (∀ s : State, step s = stepWith Config.params s) ∧
  (∀ (n : Nat) (s : State), runSteps n s = runStepsWith Config.params n s) ∧
  Config.params.rawCapBits = 264 ∧ Config.params.rawBytes = 33 ∧ Config.params.parSlots = 33 ∧
  Config.params.recBytes = 64 ∧ Config.params.uriInplace = true ∧ Config.params.mfrTable = [0xB7]

/-- A step for every parameter set that meets 00_scope.md R8: a write to CMD is the command the byte decodes to, any other
write is MemWrite, a read hands over the byte of that set's map, a reset event (70_reset_and_hazards.md R137) restores the
registers, and with nothing waiting nothing changes. That the host's accesses wait in `pending` is log 1, what a reset leaves
in the arrays log 3, their canonical form log 17. -/
def Obligations.StepServesTheHostForEveryParameterSet : Prop :=
  ∀ (P : Params) (s : State), P.Ok →
    (∀ (b : Byte) (rest : List BusEvent), s.pending = hostWr 0x84 b :: rest →
      stepWith P s = execWith P (decodeCmd b) { s with pending := rest }) ∧
    (∀ (a : Addr) (v : Byte) (rest : List BusEvent), s.pending = hostWr a v :: rest →
      stepWith P s = memWriteWith P (execWith P) { s with pending := rest } a v) ∧
    (∀ (a : Addr) (rest : List BusEvent), s.pending = hostRd a :: rest →
      stepWith P s = .next { s with pending := rest, reads := s.reads ++ [memReadWith P s a] }) ∧
    (∀ rest : List BusEvent, s.pending = .reset :: rest →
      ∃ (t : State) (raw par record : Memory) (d : Nat), stepWith P s = .next t ∧ ArraysOkWith P t ∧
        t = { State.atReset raw par record with pending := rest, reads := s.reads, draws := d }) ∧
    (s.pending = [] → stepWith P s = .next s)

/-- The invariant for every parameter set that meets 00_scope.md R8: it holds after reset whatever the arrays hold, every
step keeps it, and no step from a state that meets it faults (10_state.md R38; 20_memory.md R42; 60_exceptions.md R122). That
the arrays are canonical lists is the model's choice (log 17). -/
def Obligations.EveryStepKeepsTheInvariantForEveryParameterSet : Prop :=
  ∀ P : Params, P.Ok →
    (∀ raw par record : Memory, ArraysOkWith P (State.atReset raw par record) →
      StateInvWith P (State.atReset raw par record)) ∧
    (∀ s t : State, StateInvWith P s → stepWith P s = .next t → StateInvWith P t) ∧
    (∀ (s : State) (f : Fault), StateInvWith P s → stepWith P s ≠ .fault f)

/-- 20_memory.md R44, R45, R47, R48 for every parameter set that meets 00_scope.md R8: the three windows are as long as the
parameters say, the addresses after each are reserved, and every other row stands where it stands at the reference values. -/
def Obligations.EveryParameterSetHasItsRegisterMap : Prop :=
  ∀ (P : Params) (s : State) (v : Byte), P.Ok →
    (∀ g < P.rawBytes, memReadWith P s (BitVec.ofNat 8 g) = Memory.read s.raw g ∧
      memWriteWith P (execWith P) s (BitVec.ofNat 8 g) v
        = .next { s with raw := Memory.write s.raw g v }) ∧
    (∀ g < P.parSlots,
      memReadWith P s (BitVec.ofNat 8 (0x40 + g))
        = (if (Memory.read s.par g).getLsbD 0 = true then 0x01 else 0x00) ∧
      memWriteWith P (execWith P) s (BitVec.ofNat 8 (0x40 + g)) v
        = .next { s with par := Memory.write s.par g (v &&& 0x01) }) ∧
    (∀ i < P.recBytes, memReadWith P s (BitVec.ofNat 8 (0xC0 + i)) = Memory.read s.record i ∧
      memWriteWith P (execWith P) s (BitVec.ofNat 8 (0xC0 + i)) v = .next s) ∧
    (∀ a : Addr,
      P.rawBytes ≤ a.toNat ∧ a.toNat < 0x40 ∨ 0x40 + P.parSlots ≤ a.toNat ∧ a.toNat < 0x80 ∨
        0xC0 + P.recBytes ≤ a.toNat →
      memReadWith P s a = 0x00 ∧ memWriteWith P (execWith P) s a v = .next s) ∧
    (∀ a : Addr, 0x80 ≤ a.toNat → a.toNat < 0xC0 →
      memReadWith P s a = memRead s a ∧
      (a ≠ 0x84 → memWriteWith P (execWith P) s a v = memWrite s a v)) ∧
    memWriteWith P (execWith P) s 0x84 v = execWith P (decodeCmd v) s
end

