-- ==== Sys2Proof/Laws/Memory.lean ====
section
/-! SUPPORT. The laws of the arrays: a byte written is read back and no other byte changes, and every operation keeps
the canonical form and the size. -/

namespace Sys2Proof.Machine

@[simp] theorem Memory.read_zeroed (a : Nat) : Memory.read Memory.zeroed a = 0x00 := rfl

theorem Memory.read_erase (m : Memory) (a b : Nat) :
    Memory.read (Memory.erase m a) b = if b = a then Memory.unlisted else Memory.read m b := by
  induction m with
  | nil => simp [Memory.erase, Memory.read]
  | cons c m ih =>
    by_cases hc : c.1 = a
    · simp only [Memory.erase, hc, if_true, ih, Memory.read]
      by_cases hb : b = a
      · simp [hb]
      · simp [hb, Ne.symm hb]
    · simp only [Memory.erase, hc, if_false, Memory.read, ih]
      by_cases hb : c.1 = b
      · simp [hb, show ¬ b = a from fun h => hc (hb.trans h)]
      · simp [hb]

theorem Memory.read_insertCell (m : Memory) (a b : Nat) (v : Byte)
    (h : Memory.read m a = Memory.unlisted) (hm : ∀ c ∈ m, c.1 ≠ a) :
    Memory.read (Memory.insertCell m a v) b = if b = a then v else Memory.read m b := by
  induction m with
  | nil => simp [Memory.insertCell, Memory.read, eq_comm]
  | cons c m ih =>
    have hc : c.1 ≠ a := hm c (by simp)
    have ih := ih (by simpa [Memory.read, hc] using h) (fun d hd => hm d (by simp [hd]))
    by_cases hlt : a < c.1
    · simp [Memory.insertCell, hlt, Memory.read, eq_comm]
    · simp only [Memory.insertCell, hlt, if_false, Memory.read, ih]
      by_cases hb : c.1 = b
      · simp [hb, show ¬ b = a from fun h' => hc (hb.trans h')]
      · simp [hb]

theorem Memory.mem_erase (m : Memory) (a : Nat) (c : Host.Cell) :
    c ∈ Memory.erase m a ↔ c ∈ m ∧ c.1 ≠ a := by
  induction m with
  | nil => simp [Memory.erase]
  | cons d m ih =>
    by_cases hd : d.1 = a
    · simp only [Memory.erase, hd, if_true, ih, List.mem_cons]
      constructor
      · exact fun h => ⟨.inr h.1, h.2⟩
      · rintro ⟨rfl | h, hc⟩
        · exact absurd hd hc
        · exact ⟨h, hc⟩
    · simp only [Memory.erase, hd, if_false, List.mem_cons, ih]
      constructor
      · rintro (rfl | h)
        · exact ⟨.inl rfl, hd⟩
        · exact ⟨.inr h.1, h.2⟩
      · rintro ⟨h | h, hc⟩
        · exact .inl h
        · exact .inr ⟨h, hc⟩

theorem Memory.mem_insertCell (m : Memory) (a : Nat) (v : Byte) (c : Host.Cell) :
    c ∈ Memory.insertCell m a v ↔ c = (a, v) ∨ c ∈ m := by
  induction m with
  | nil => simp [Memory.insertCell]
  | cons d m ih =>
    by_cases hlt : a < d.1
    · simp [Memory.insertCell, hlt]
    · simp only [Memory.insertCell, hlt, if_false, List.mem_cons, ih]
      tauto

/-- A byte written is read back, and every other byte reads as before. -/
theorem Memory.read_write (m : Memory) (a b : Nat) (v : Byte) :
    Memory.read (Memory.write m a v) b = if b = a then v else Memory.read m b := by
  unfold Memory.write
  split
  · next hv => rw [Memory.read_erase, hv]
  · rw [Memory.read_insertCell _ _ _ _ (by simp [Memory.read_erase])
      (fun c hc => ((Memory.mem_erase m a c).mp hc).2), Memory.read_erase]
    split <;> simp_all

@[simp] theorem Memory.read_write_same (m : Memory) (a : Nat) (v : Byte) :
    Memory.read (Memory.write m a v) a = v := by simp [Memory.read_write]

theorem Memory.read_write_other (m : Memory) {a b : Nat} (v : Byte) (h : b ≠ a) :
    Memory.read (Memory.write m a v) b = Memory.read m b := by simp [Memory.read_write, h]

/-- What a write leaves listed: at most the written cell beside cells that were listed at other indices. -/
theorem Memory.mem_write {m : Memory} {a : Nat} {v : Byte} {c : Host.Cell}
    (h : c ∈ Memory.write m a v) : c = (a, v) ∧ v ≠ Memory.unlisted ∨ c ∈ m ∧ c.1 ≠ a := by
  unfold Memory.write at h
  split at h
  · exact .inr ((Memory.mem_erase m a c).mp h)
  · next hv =>
    rcases (Memory.mem_insertCell _ a v c).mp h with h | h
    · exact .inl ⟨h, hv⟩
    · exact .inr ((Memory.mem_erase m a c).mp h)

theorem Memory.wf_zeroed : Memory.wf Memory.zeroed := by
  exact ⟨List.Pairwise.nil, by simp [Memory.zeroed]⟩

theorem Memory.wf_erase {m : Memory} (a : Nat) (h : Memory.wf m) : Memory.wf (Memory.erase m a) := by
  refine ⟨?_, fun c hc => h.2 c ((Memory.mem_erase m a c).mp hc).1⟩
  obtain ⟨hp, -⟩ := h
  induction m with
  | nil => exact List.Pairwise.nil
  | cons d m ih =>
    rw [List.pairwise_cons] at hp
    by_cases hd : d.1 = a
    · simpa [Memory.erase, hd] using ih hp.2
    · simp only [Memory.erase, hd, if_false, List.pairwise_cons]
      exact ⟨fun c hc => hp.1 c ((Memory.mem_erase m a c).mp hc).1, ih hp.2⟩

theorem Memory.pairwise_insertCell {m : Memory} {a : Nat} {v : Byte}
    (hp : m.Pairwise (fun x y => x.1 < y.1)) (hm : ∀ c ∈ m, c.1 ≠ a) :
    (Memory.insertCell m a v).Pairwise (fun x y => x.1 < y.1) := by
  induction m with
  | nil => simp [Memory.insertCell]
  | cons d m ih =>
    rw [List.pairwise_cons] at hp
    by_cases hlt : a < d.1
    · simp only [Memory.insertCell, hlt, if_true, List.pairwise_cons]
      exact ⟨fun c hc => by
        rcases List.mem_cons.mp hc with rfl | hc
        · exact hlt
        · exact lt_trans hlt (hp.1 c hc), hp.1, hp.2⟩
    · have hd : d.1 < a := lt_of_le_of_ne (not_lt.mp hlt) (hm d (by simp))
      simp only [Memory.insertCell, hlt, if_false, List.pairwise_cons]
      refine ⟨fun c hc => ?_, ih hp.2 (fun c hc => hm c (by simp [hc]))⟩
      rcases (Memory.mem_insertCell m a v c).mp hc with rfl | hc
      · exact hd
      · exact hp.1 c hc

/-- A write keeps the canonical form. -/
theorem Memory.wf_write {m : Memory} (a : Nat) (v : Byte) (h : Memory.wf m) :
    Memory.wf (Memory.write m a v) := by
  have he := Memory.wf_erase a h
  refine ⟨?_, fun c hc => ?_⟩
  · unfold Memory.write
    split
    · exact he.1
    · exact Memory.pairwise_insertCell he.1 (fun c hc => ((Memory.mem_erase m a c).mp hc).2)
  · rcases Memory.mem_write hc with ⟨rfl, hv⟩ | ⟨hc, -⟩
    · exact hv
    · exact h.2 c hc

/-- A write inside the array leaves nothing listed outside it. -/
theorem Memory.bound_write {m : Memory} {a size : Nat} (v : Byte) (ha : a < size)
    (h : ∀ c ∈ m, c.1 < size) : ∀ c ∈ Memory.write m a v, c.1 < size := by
  intro c hc
  rcases Memory.mem_write hc with ⟨rfl, -⟩ | ⟨hc, -⟩
  · exact ha
  · exact h c hc

/-- What an array built from a function reads as. -/
theorem Memory.read_ofFn (f : Nat → Byte) (n a : Nat) :
    Memory.read (Memory.ofFn f n) a = if a < n then f a else Memory.unlisted := by
  induction n with
  | zero => simp [Memory.ofFn, Memory.read]
  | succ n ih =>
    rw [Memory.ofFn, Memory.read_write, ih]
    by_cases h : a = n
    · simp [h]
    · simp [h, show a < n + 1 ↔ a < n by omega]

theorem Memory.wf_ofFn (f : Nat → Byte) (n : Nat) : Memory.wf (Memory.ofFn f n) := by
  induction n with
  | zero => exact ⟨List.Pairwise.nil, by simp [Memory.ofFn]⟩
  | succ n ih => exact Memory.wf_write n (f n) ih

theorem Memory.mem_ofFn {f : Nat → Byte} {n : Nat} {c : Host.Cell} (h : c ∈ Memory.ofFn f n) :
    c.1 < n ∧ c.2 = f c.1 ∧ c.2 ≠ Memory.unlisted := by
  induction n with
  | zero => simp [Memory.ofFn] at h
  | succ n ih =>
    rcases Memory.mem_write h with ⟨rfl, hv⟩ | ⟨h, -⟩
    · exact ⟨Nat.lt_succ_self n, rfl, hv⟩
    · obtain ⟨h1, h2⟩ := ih h
      exact ⟨by omega, h2⟩

@[simp] theorem Memory.length_slice (m : Memory) (lo count : Nat) :
    (Memory.slice m lo count).length = count := by simp [Memory.slice]

/-- A slice depends on the bytes it reads alone. -/
theorem Memory.slice_congr {m m' : Memory} {lo count : Nat}
    (h : ∀ a, lo ≤ a → a < lo + count → Memory.read m a = Memory.read m' a) :
    Memory.slice m lo count = Memory.slice m' lo count := by
  refine List.map_congr_left fun i hi => ?_
  have := List.mem_range.mp hi
  exact h _ (by omega) (by omega)

end Sys2Proof.Machine
end

