-- ==== Sys2Proof/Laws/Bits.lean ====
section
/-! SUPPORT. The bit primitives of REC (41_reframer.md R87) and the string of bits REFRAME writes
(30_encoding.md R62). -/

namespace Sys2Proof.Machine

@[simp] theorem getBit_zeroed (o : Nat) : getBit Memory.zeroed o = false := by
  simp [getBit]

/-- Bit `k` of the byte SetBit ORs in. -/
theorem getLsbD_bitMask (b : Bool) {j k : Nat} (hj : j < 8) (hk : k < 8) :
    ((BitVec.ofBool b).zeroExtend 8 <<< j).getLsbD k = (b && decide (k = j)) := by
  interval_cases j <;> interval_cases k <;> cases b <;> rfl

/-- SetBit ORs its bit in at its own offset and leaves every other bit. -/
theorem getBit_setBit (m : Memory) (o p : Nat) (b : Bool) :
    getBit (setBit m o b) p = (getBit m p || (b && decide (p = o))) := by
  unfold getBit setBit
  rw [Memory.read_write]
  by_cases hq : p / 8 = o / 8
  · rw [if_pos hq, BitVec.getLsbD_or, getLsbD_bitMask b (by omega) (by omega), hq]
    congr 2
    simp only [decide_eq_decide]
    omega
  · rw [if_neg hq]
    have : ¬ p = o := fun h => hq (by rw [h])
    simp [this]

/-- Writing a string of bits into bits that are clear puts the string there and leaves every other bit. -/
theorem getBit_writeBits (bits : List Bool) (m : Memory) (cur p : Nat)
    (h : ∀ o, cur ≤ o → getBit m o = false) :
    getBit (writeBits m cur bits) p = if p < cur then getBit m p else bits.getD (p - cur) false := by
  induction bits generalizing m cur with
  | nil =>
    by_cases hp : p < cur
    · simp [writeBits, hp]
    · simp [writeBits, hp, h p (not_lt.mp hp)]
  | cons b bits ih =>
    have hm : ∀ o, cur + 1 ≤ o → getBit (setBit m cur b) o = false := fun o ho => by
      have : ¬ o = cur := by omega
      simp [getBit_setBit, h o (by omega), this]
    rw [writeBits, ih _ _ hm]
    rcases lt_trichotomy p cur with hp | rfl | hp
    · have h1 : p < cur + 1 := by omega
      have h2 : ¬ p = cur := by omega
      simp [h1, hp, getBit_setBit, h2]
    · simp [getBit_setBit, h p le_rfl]
    · have h1 : ¬ p < cur + 1 := by omega
      have h2 : ¬ p < cur := by omega
      rw [if_neg h1, if_neg h2, show p - cur = (p - (cur + 1)) + 1 by omega, List.getD_cons_succ]

/-- A bit of the record REFRAME builds is the bit of the frame at its offset, and clear past the end. -/
theorem getBit_reframedRecord (s : State) (o : Nat) :
    getBit (reframedRecord s) o = (wireBits s).getD o false := by
  rw [reframedRecord, getBit_writeBits _ _ _ _ (fun _ _ => getBit_zeroed _)]
  simp

@[simp] theorem length_groupBits (s : State) (g n : Nat) : (groupBits s g n).length = n := by
  simp [groupBits]

@[simp] theorem length_fullGroup (s : State) (g : Nat) : (fullGroup s g).length = 9 := by
  simp [fullGroup]

/-- A byte is determined by its eight bits of REC. -/
theorem read_eq_of_getBit {m m' : Memory} {i : Nat}
    (h : ∀ o, o / 8 = i → getBit m o = getBit m' o) : Memory.read m i = Memory.read m' i := by
  refine BitVec.eq_of_getLsbD_eq fun k hk => ?_
  have hbit := h (8 * i + (7 - k)) (by omega)
  unfold getBit at hbit
  rwa [show (8 * i + (7 - k)) / 8 = i by omega, show 7 - (8 * i + (7 - k)) % 8 = k by omega] at hbit

theorem wf_setBit {m : Memory} (o : Nat) (b : Bool) (h : Memory.wf m) : Memory.wf (setBit m o b) :=
  Memory.wf_write _ _ h

theorem wf_writeBits (bits : List Bool) {m : Memory} (cur : Nat) (h : Memory.wf m) :
    Memory.wf (writeBits m cur bits) := by
  induction bits generalizing m cur with
  | nil => exact h
  | cons b bits ih => exact ih (cur + 1) (wf_setBit cur b h)

/-- A string that ends inside the array leaves nothing listed outside it. -/
theorem bound_writeBits (bits : List Bool) {m : Memory} {cur size : Nat}
    (hsize : cur + bits.length ≤ 8 * size) (h : ∀ c ∈ m, c.1 < size) :
    ∀ c ∈ writeBits m cur bits, c.1 < size := by
  induction bits generalizing m cur with
  | nil => exact h
  | cons b bits ih =>
    simp only [List.length_cons] at hsize
    exact ih (by omega) (Memory.bound_write _ (by omega) h)

end Sys2Proof.Machine
end

