-- ==== Sys2Proof/Laws/State.lean ====
section
/-! SUPPORT. One lemma per field of State per named update of it, each true by definition, so that no proof
unfolds a record update. -/

namespace Sys2Proof.Machine

/-! A command error (40_control.md R79). -/

@[simp] theorem raiseCmdError_raw (e : CmdError) (s : State) :
    (raiseCmdError e s).raw = s.raw := rfl
@[simp] theorem raiseCmdError_par (e : CmdError) (s : State) :
    (raiseCmdError e s).par = s.par := rfl
@[simp] theorem raiseCmdError_rawNbits (e : CmdError) (s : State) :
    (raiseCmdError e s).rawNbits = s.rawNbits := rfl
@[simp] theorem raiseCmdError_record (e : CmdError) (s : State) :
    (raiseCmdError e s).record = s.record := rfl
@[simp] theorem raiseCmdError_ebl (e : CmdError) (s : State) :
    (raiseCmdError e s).ebl = s.ebl := rfl
@[simp] theorem raiseCmdError_vres (e : CmdError) (s : State) :
    (raiseCmdError e s).vres = s.vres := rfl
@[simp] theorem raiseCmdError_crc (e : CmdError) (s : State) :
    (raiseCmdError e s).crc = s.crc := rfl
@[simp] theorem raiseCmdError_seq (e : CmdError) (s : State) :
    (raiseCmdError e s).seq = s.seq := rfl
@[simp] theorem raiseCmdError_cmdRes (e : CmdError) (s : State) :
    (raiseCmdError e s).cmdRes = e.result := rfl
@[simp] theorem raiseCmdError_errSeen (e : CmdError) (s : State) :
    (raiseCmdError e s).errSeen = true := rfl
@[simp] theorem raiseCmdError_dvKind (e : CmdError) (s : State) :
    (raiseCmdError e s).dvKind = s.dvKind := rfl
@[simp] theorem raiseCmdError_dvFmt (e : CmdError) (s : State) :
    (raiseCmdError e s).dvFmt = s.dvFmt := rfl
@[simp] theorem raiseCmdError_dvMfr (e : CmdError) (s : State) :
    (raiseCmdError e s).dvMfr = s.dvMfr := rfl
@[simp] theorem raiseCmdError_mfrKnown (e : CmdError) (s : State) :
    (raiseCmdError e s).mfrKnown = s.mfrKnown := rfl
@[simp] theorem raiseCmdError_dvLen (e : CmdError) (s : State) :
    (raiseCmdError e s).dvLen = s.dvLen := rfl
@[simp] theorem raiseCmdError_dvTerm (e : CmdError) (s : State) :
    (raiseCmdError e s).dvTerm = s.dvTerm := rfl
@[simp] theorem raiseCmdError_pending (e : CmdError) (s : State) :
    (raiseCmdError e s).pending = s.pending := rfl
@[simp] theorem raiseCmdError_reads (e : CmdError) (s : State) :
    (raiseCmdError e s).reads = s.reads := rfl
@[simp] theorem raiseCmdError_draws (e : CmdError) (s : State) :
    (raiseCmdError e s).draws = s.draws := rfl

/-! The end of a successful command (40_control.md R80). -/

@[simp] theorem finishCmd_raw (q : SeqState) (s : State) :
    (finishCmd q s).raw = s.raw := rfl
@[simp] theorem finishCmd_par (q : SeqState) (s : State) :
    (finishCmd q s).par = s.par := rfl
@[simp] theorem finishCmd_rawNbits (q : SeqState) (s : State) :
    (finishCmd q s).rawNbits = s.rawNbits := rfl
@[simp] theorem finishCmd_record (q : SeqState) (s : State) :
    (finishCmd q s).record = s.record := rfl
@[simp] theorem finishCmd_ebl (q : SeqState) (s : State) :
    (finishCmd q s).ebl = s.ebl := rfl
@[simp] theorem finishCmd_vres (q : SeqState) (s : State) :
    (finishCmd q s).vres = s.vres := rfl
@[simp] theorem finishCmd_crc (q : SeqState) (s : State) :
    (finishCmd q s).crc = s.crc := rfl
@[simp] theorem finishCmd_seq (q : SeqState) (s : State) :
    (finishCmd q s).seq = q := rfl
@[simp] theorem finishCmd_cmdRes (q : SeqState) (s : State) :
    (finishCmd q s).cmdRes = .ok := rfl
@[simp] theorem finishCmd_errSeen (q : SeqState) (s : State) :
    (finishCmd q s).errSeen = s.errSeen := rfl
@[simp] theorem finishCmd_dvKind (q : SeqState) (s : State) :
    (finishCmd q s).dvKind = s.dvKind := rfl
@[simp] theorem finishCmd_dvFmt (q : SeqState) (s : State) :
    (finishCmd q s).dvFmt = s.dvFmt := rfl
@[simp] theorem finishCmd_dvMfr (q : SeqState) (s : State) :
    (finishCmd q s).dvMfr = s.dvMfr := rfl
@[simp] theorem finishCmd_mfrKnown (q : SeqState) (s : State) :
    (finishCmd q s).mfrKnown = s.mfrKnown := rfl
@[simp] theorem finishCmd_dvLen (q : SeqState) (s : State) :
    (finishCmd q s).dvLen = s.dvLen := rfl
@[simp] theorem finishCmd_dvTerm (q : SeqState) (s : State) :
    (finishCmd q s).dvTerm = s.dvTerm := rfl
@[simp] theorem finishCmd_pending (q : SeqState) (s : State) :
    (finishCmd q s).pending = s.pending := rfl
@[simp] theorem finishCmd_reads (q : SeqState) (s : State) :
    (finishCmd q s).reads = s.reads := rfl
@[simp] theorem finishCmd_draws (q : SeqState) (s : State) :
    (finishCmd q s).draws = s.draws := rfl

/-! The results cleared (41_reframer.md R90). -/

@[simp] theorem clearResults_raw (s : State) :
    (clearResults s).raw = s.raw := rfl
@[simp] theorem clearResults_par (s : State) :
    (clearResults s).par = s.par := rfl
@[simp] theorem clearResults_rawNbits (s : State) :
    (clearResults s).rawNbits = s.rawNbits := rfl
@[simp] theorem clearResults_record (s : State) :
    (clearResults s).record = s.record := rfl
@[simp] theorem clearResults_ebl (s : State) :
    (clearResults s).ebl = s.ebl := rfl
@[simp] theorem clearResults_vres (s : State) :
    (clearResults s).vres = .none := rfl
@[simp] theorem clearResults_crc (s : State) :
    (clearResults s).crc = 0x0000 := rfl
@[simp] theorem clearResults_seq (s : State) :
    (clearResults s).seq = s.seq := rfl
@[simp] theorem clearResults_cmdRes (s : State) :
    (clearResults s).cmdRes = s.cmdRes := rfl
@[simp] theorem clearResults_errSeen (s : State) :
    (clearResults s).errSeen = s.errSeen := rfl
@[simp] theorem clearResults_dvKind (s : State) :
    (clearResults s).dvKind = .none := rfl
@[simp] theorem clearResults_dvFmt (s : State) :
    (clearResults s).dvFmt = 0x00 := rfl
@[simp] theorem clearResults_dvMfr (s : State) :
    (clearResults s).dvMfr = 0x00 := rfl
@[simp] theorem clearResults_mfrKnown (s : State) :
    (clearResults s).mfrKnown = false := rfl
@[simp] theorem clearResults_dvLen (s : State) :
    (clearResults s).dvLen = 0x00 := rfl
@[simp] theorem clearResults_dvTerm (s : State) :
    (clearResults s).dvTerm = 0x00 := rfl
@[simp] theorem clearResults_pending (s : State) :
    (clearResults s).pending = s.pending := rfl
@[simp] theorem clearResults_reads (s : State) :
    (clearResults s).reads = s.reads := rfl
@[simp] theorem clearResults_draws (s : State) :
    (clearResults s).draws = s.draws := rfl

/-! The view of a format (10_state.md R32). -/

@[simp] theorem setView_raw (k : DvKind) (len term : Byte) (s : State) :
    (setView k len term s).raw = s.raw := rfl
@[simp] theorem setView_par (k : DvKind) (len term : Byte) (s : State) :
    (setView k len term s).par = s.par := rfl
@[simp] theorem setView_rawNbits (k : DvKind) (len term : Byte) (s : State) :
    (setView k len term s).rawNbits = s.rawNbits := rfl
@[simp] theorem setView_record (k : DvKind) (len term : Byte) (s : State) :
    (setView k len term s).record = s.record := rfl
@[simp] theorem setView_ebl (k : DvKind) (len term : Byte) (s : State) :
    (setView k len term s).ebl = s.ebl := rfl
@[simp] theorem setView_vres (k : DvKind) (len term : Byte) (s : State) :
    (setView k len term s).vres = s.vres := rfl
@[simp] theorem setView_crc (k : DvKind) (len term : Byte) (s : State) :
    (setView k len term s).crc = s.crc := rfl
@[simp] theorem setView_seq (k : DvKind) (len term : Byte) (s : State) :
    (setView k len term s).seq = s.seq := rfl
@[simp] theorem setView_cmdRes (k : DvKind) (len term : Byte) (s : State) :
    (setView k len term s).cmdRes = s.cmdRes := rfl
@[simp] theorem setView_errSeen (k : DvKind) (len term : Byte) (s : State) :
    (setView k len term s).errSeen = s.errSeen := rfl
@[simp] theorem setView_dvKind (k : DvKind) (len term : Byte) (s : State) :
    (setView k len term s).dvKind = k := rfl
@[simp] theorem setView_dvFmt (k : DvKind) (len term : Byte) (s : State) :
    (setView k len term s).dvFmt = s.dvFmt := rfl
@[simp] theorem setView_dvMfr (k : DvKind) (len term : Byte) (s : State) :
    (setView k len term s).dvMfr = s.dvMfr := rfl
@[simp] theorem setView_mfrKnown (k : DvKind) (len term : Byte) (s : State) :
    (setView k len term s).mfrKnown = s.mfrKnown := rfl
@[simp] theorem setView_dvLen (k : DvKind) (len term : Byte) (s : State) :
    (setView k len term s).dvLen = len := rfl
@[simp] theorem setView_dvTerm (k : DvKind) (len term : Byte) (s : State) :
    (setView k len term s).dvTerm = term := rfl
@[simp] theorem setView_pending (k : DvKind) (len term : Byte) (s : State) :
    (setView k len term s).pending = s.pending := rfl
@[simp] theorem setView_reads (k : DvKind) (len term : Byte) (s : State) :
    (setView k len term s).reads = s.reads := rfl
@[simp] theorem setView_draws (k : DvKind) (len term : Byte) (s : State) :
    (setView k len term s).draws = s.draws := rfl

/-! The fields of every format (43_decoder.md R108). -/

@[simp] theorem commonFields_raw (P : Params) (s : State) :
    (commonFields P s).raw = s.raw := rfl
@[simp] theorem commonFields_par (P : Params) (s : State) :
    (commonFields P s).par = s.par := rfl
@[simp] theorem commonFields_rawNbits (P : Params) (s : State) :
    (commonFields P s).rawNbits = s.rawNbits := rfl
@[simp] theorem commonFields_record (P : Params) (s : State) :
    (commonFields P s).record = s.record := rfl
@[simp] theorem commonFields_ebl (P : Params) (s : State) :
    (commonFields P s).ebl = s.ebl := rfl
@[simp] theorem commonFields_vres (P : Params) (s : State) :
    (commonFields P s).vres = s.vres := rfl
@[simp] theorem commonFields_crc (P : Params) (s : State) :
    (commonFields P s).crc = s.crc := rfl
@[simp] theorem commonFields_seq (P : Params) (s : State) :
    (commonFields P s).seq = s.seq := rfl
@[simp] theorem commonFields_cmdRes (P : Params) (s : State) :
    (commonFields P s).cmdRes = s.cmdRes := rfl
@[simp] theorem commonFields_errSeen (P : Params) (s : State) :
    (commonFields P s).errSeen = s.errSeen := rfl
@[simp] theorem commonFields_dvKind (P : Params) (s : State) :
    (commonFields P s).dvKind = s.dvKind := rfl
@[simp] theorem commonFields_dvFmt (P : Params) (s : State) :
    (commonFields P s).dvFmt = formatByte s := rfl
@[simp] theorem commonFields_dvMfr (P : Params) (s : State) :
    (commonFields P s).dvMfr = manufacturerByte s := rfl
@[simp] theorem commonFields_mfrKnown (P : Params) (s : State) :
    (commonFields P s).mfrKnown = mfrLookup P (manufacturerByte s) := rfl
@[simp] theorem commonFields_dvLen (P : Params) (s : State) :
    (commonFields P s).dvLen = s.dvLen := rfl
@[simp] theorem commonFields_dvTerm (P : Params) (s : State) :
    (commonFields P s).dvTerm = s.dvTerm := rfl
@[simp] theorem commonFields_pending (P : Params) (s : State) :
    (commonFields P s).pending = s.pending := rfl
@[simp] theorem commonFields_reads (P : Params) (s : State) :
    (commonFields P s).reads = s.reads := rfl
@[simp] theorem commonFields_draws (P : Params) (s : State) :
    (commonFields P s).draws = s.draws := rfl

/-! A host read (20_memory.md R52). -/

@[simp] theorem hostRead_raw (v : Byte) (s : State) :
    (hostRead v s).raw = s.raw := rfl
@[simp] theorem hostRead_par (v : Byte) (s : State) :
    (hostRead v s).par = s.par := rfl
@[simp] theorem hostRead_rawNbits (v : Byte) (s : State) :
    (hostRead v s).rawNbits = s.rawNbits := rfl
@[simp] theorem hostRead_record (v : Byte) (s : State) :
    (hostRead v s).record = s.record := rfl
@[simp] theorem hostRead_ebl (v : Byte) (s : State) :
    (hostRead v s).ebl = s.ebl := rfl
@[simp] theorem hostRead_vres (v : Byte) (s : State) :
    (hostRead v s).vres = s.vres := rfl
@[simp] theorem hostRead_crc (v : Byte) (s : State) :
    (hostRead v s).crc = s.crc := rfl
@[simp] theorem hostRead_seq (v : Byte) (s : State) :
    (hostRead v s).seq = s.seq := rfl
@[simp] theorem hostRead_cmdRes (v : Byte) (s : State) :
    (hostRead v s).cmdRes = s.cmdRes := rfl
@[simp] theorem hostRead_errSeen (v : Byte) (s : State) :
    (hostRead v s).errSeen = s.errSeen := rfl
@[simp] theorem hostRead_dvKind (v : Byte) (s : State) :
    (hostRead v s).dvKind = s.dvKind := rfl
@[simp] theorem hostRead_dvFmt (v : Byte) (s : State) :
    (hostRead v s).dvFmt = s.dvFmt := rfl
@[simp] theorem hostRead_dvMfr (v : Byte) (s : State) :
    (hostRead v s).dvMfr = s.dvMfr := rfl
@[simp] theorem hostRead_mfrKnown (v : Byte) (s : State) :
    (hostRead v s).mfrKnown = s.mfrKnown := rfl
@[simp] theorem hostRead_dvLen (v : Byte) (s : State) :
    (hostRead v s).dvLen = s.dvLen := rfl
@[simp] theorem hostRead_dvTerm (v : Byte) (s : State) :
    (hostRead v s).dvTerm = s.dvTerm := rfl
@[simp] theorem hostRead_pending (v : Byte) (s : State) :
    (hostRead v s).pending = s.pending := rfl
@[simp] theorem hostRead_reads (v : Byte) (s : State) :
    (hostRead v s).reads = s.reads ++ [v] := rfl
@[simp] theorem hostRead_draws (v : Byte) (s : State) :
    (hostRead v s).draws = s.draws := rfl

/-! A command about to be issued (log 1). -/

@[simp] theorem placeCommand_raw (w : Nat) (s : State) :
    (placeCommand w s).raw = s.raw := rfl
@[simp] theorem placeCommand_par (w : Nat) (s : State) :
    (placeCommand w s).par = s.par := rfl
@[simp] theorem placeCommand_rawNbits (w : Nat) (s : State) :
    (placeCommand w s).rawNbits = s.rawNbits := rfl
@[simp] theorem placeCommand_record (w : Nat) (s : State) :
    (placeCommand w s).record = s.record := rfl
@[simp] theorem placeCommand_ebl (w : Nat) (s : State) :
    (placeCommand w s).ebl = s.ebl := rfl
@[simp] theorem placeCommand_vres (w : Nat) (s : State) :
    (placeCommand w s).vres = s.vres := rfl
@[simp] theorem placeCommand_crc (w : Nat) (s : State) :
    (placeCommand w s).crc = s.crc := rfl
@[simp] theorem placeCommand_seq (w : Nat) (s : State) :
    (placeCommand w s).seq = s.seq := rfl
@[simp] theorem placeCommand_cmdRes (w : Nat) (s : State) :
    (placeCommand w s).cmdRes = s.cmdRes := rfl
@[simp] theorem placeCommand_errSeen (w : Nat) (s : State) :
    (placeCommand w s).errSeen = s.errSeen := rfl
@[simp] theorem placeCommand_dvKind (w : Nat) (s : State) :
    (placeCommand w s).dvKind = s.dvKind := rfl
@[simp] theorem placeCommand_dvFmt (w : Nat) (s : State) :
    (placeCommand w s).dvFmt = s.dvFmt := rfl
@[simp] theorem placeCommand_dvMfr (w : Nat) (s : State) :
    (placeCommand w s).dvMfr = s.dvMfr := rfl
@[simp] theorem placeCommand_mfrKnown (w : Nat) (s : State) :
    (placeCommand w s).mfrKnown = s.mfrKnown := rfl
@[simp] theorem placeCommand_dvLen (w : Nat) (s : State) :
    (placeCommand w s).dvLen = s.dvLen := rfl
@[simp] theorem placeCommand_dvTerm (w : Nat) (s : State) :
    (placeCommand w s).dvTerm = s.dvTerm := rfl
@[simp] theorem placeCommand_pending (w : Nat) (s : State) :
    (placeCommand w s).pending = hostWr cmdAddr (BitVec.ofNat 8 w) :: s.pending := rfl
@[simp] theorem placeCommand_reads (w : Nat) (s : State) :
    (placeCommand w s).reads = s.reads := rfl
@[simp] theorem placeCommand_draws (w : Nat) (s : State) :
    (placeCommand w s).draws = s.draws := rfl

end Sys2Proof.Machine
end

