-- ==== Sys2Proof/Laws/Commands.lean ====
section
/-! SUPPORT. What each shared operation can do, said once: the commands, RUN, the URI scan, a bus write, a step. -/

namespace Sys2Proof.Machine

/-- The length of the frame (41_reframer.md R91). -/
theorem length_wireBits (s : State) :
    (wireBits s).length = 1 + 9 * (bitCount s / 8) + bitCount s % 8 := by
  have h : ((List.range (groupCount s)).flatMap (fullGroup s)).length = 9 * groupCount s := by
    generalize groupCount s = n
    induction n with
    | zero => rfl
    | succ n ih => rw [List.range_succ, List.flatMap_append, List.length_append, ih]; simp; omega
  simp only [wireBits, List.length_cons, List.length_append, length_groupBits, h]
  simp only [groupCount, partialBits]
  omega

/-- The length REFRAME stores fits 16 bits when the length check passes (41_reframer.md R91). -/
theorem toNat_reframedLength {P : Params} (s : State) (hP : P.Ok) (h : bitCount s ≤ P.rawCapBits) :
    (BitVec.ofNat 16 (reframedLength s)).toNat = 1 + 9 * (bitCount s / 8) + bitCount s % 8 ∧
      1 + 9 * (bitCount s / 8) + bitCount s % 8 ≤ 8 * P.recBytes := by
  obtain ⟨h1, -, -, h4⟩ := hP
  simp only [Params.maxLength] at h1
  have hle : 1 + 9 * (bitCount s / 8) + bitCount s % 8 ≤ 8 * P.recBytes := by omega
  refine ⟨?_, hle⟩
  rw [reframedLength, length_wireBits, BitVec.toNat_ofNat]
  exact Nat.mod_eq_of_lt (by omega)

theorem params_ok : Config.params.Ok := by decide

/-- REFRAME either refuses the length or reframes (41_reframer.md R88, R89). -/
theorem reframeWith_cases (P : Params) (s : State) :
    P.rawCapBits < bitCount s ∧ reframeWith P s = .next (raiseCmdError .lenErr s) ∨
    bitCount s ≤ P.rawCapBits ∧ reframeWith P s = .next (reframeEffect s) := by
  by_cases h : P.rawCapBits < bitCount s
  · exact .inl ⟨h, if_pos h⟩
  · exact .inr ⟨not_lt.mp h, if_neg h⟩

/-- VALIDATE refuses the state, classifies the record, or stops on a length no run holds (42_validator.md R97). -/
theorem validateWith_cases (P : Params) (s : State) :
    validateLegal s.seq = false ∧ validateWith P s = .next (raiseCmdError .seqErr s) ∨
    validateLegal s.seq = true ∧ isComplete s = false ∧ validateWith P s = .next (markIncomplete s) ∨
    validateLegal s.seq = true ∧ isComplete s = true ∧ crcInRange P s = true ∧
      validateWith P s = .next (checkCrc s) ∨
    validateLegal s.seq = true ∧ isComplete s = true ∧ crcInRange P s = false ∧
      validateWith P s = .fault .recordOutOfRange := by
  unfold validateWith
  cases validateLegal s.seq <;> cases isComplete s <;> cases crcInRange P s <;> simp

theorem validateLegal_iff (q : SeqState) :
    validateLegal q = true ↔ q = .reframed ∨ q = .validOk ∨ q = .validFail := by
  cases q <;> simp [validateLegal]

/-- Completeness in terms of EBL (30_encoding.md R65). -/
theorem isComplete_iff (s : State) : isComplete s = true ↔ s.ebl.toNat % 128 = 0 :=
  decide_eq_true_iff

/-- The record's CRC bytes are in REC, in terms of EBL. -/
theorem crcInRange_iff (P : Params) (s : State) :
    crcInRange P s = true ↔ 2 ≤ s.ebl.toNat / 8 ∧ s.ebl.toNat / 8 ≤ P.recBytes := by
  unfold crcInRange
  rw [Bool.and_eq_true, decide_eq_true_iff, decide_eq_true_iff]
  rfl

/-- The comparison of 42_validator.md R99. -/
theorem crcMatches_iff (s : State) : crcMatches s = true ↔
    lowByte (recordCrc s) = storedCrcLow s ∧ highByte (recordCrc s) = storedCrcHigh s := by
  unfold crcMatches
  rw [Bool.and_eq_true, decide_eq_true_iff, decide_eq_true_iff]

@[simp] theorem lowByte_append (a b : Byte) : lowByte (a ++ b) = b :=
  BitVec.extractLsb'_append_eq_right

@[simp] theorem highByte_append (a b : Byte) : highByte (a ++ b) = a :=
  BitVec.extractLsb'_append_eq_left

/-- A 16-bit register is its two bytes (20_memory.md R43 item 4). -/
theorem highByte_append_lowByte (h : Half) : highByte h ++ lowByte h = h := by
  have h16 := BitVec.extractLsb'_append_extractLsb'_eq_extractLsb'
    (x := h) (start₁ := 0) (start₂ := 8) (len₁ := 8) (len₂ := 8) rfl
  simpa [highByte, lowByte] using h16

/-- A complete record is Valid or a mismatch, with the computed CRC in CRC (42_validator.md R99). -/
theorem checkCrc_cases (s : State) :
    crcMatches s = true ∧
      checkCrc s = finishCmd .validOk { s with vres := .valid, crc := recordCrc s } ∨
    crcMatches s = false ∧
      checkCrc s = finishCmd .validFail { s with vres := .crcMismatch, crc := recordCrc s } := by
  unfold checkCrc
  cases crcMatches s <;> simp

/-- A legal VALIDATE that answers a state wrote VRES, CRC, SEQ and CMDRES alone, and SEQ as VRES says (42_validator.md R100). -/
theorem validateWith_next {P : Params} {s t : State} (hl : validateLegal s.seq = true)
    (h : validateWith P s = .next t) :
    t = { s with vres := t.vres, crc := t.crc, seq := t.seq, cmdRes := .ok } ∧
    (t.vres = .valid ∧ t.seq = .validOk ∧ isComplete s = true ∧ crcInRange P s = true ∨
      t.vres = .crcMismatch ∧ t.seq = .validFail ∧ isComplete s = true ∧ crcInRange P s = true ∨
      t.vres = .incomplete ∧ t.crc = 0x0000 ∧ t.seq = .validFail ∧ isComplete s = false) := by
  rcases validateWith_cases P s with ⟨h1, h2⟩ | ⟨-, h2, h3⟩ | ⟨-, h2, h3, h4⟩ | ⟨-, h2, h3, h4⟩
  · simp [hl] at h1
  · rw [h3] at h
    injection h with h
    subst h
    exact ⟨rfl, .inr (.inr ⟨rfl, rfl, rfl, h2⟩)⟩
  · rw [h4] at h
    injection h with h
    subst h
    rcases checkCrc_cases s with ⟨-, h⟩ | ⟨-, h⟩ <;> rw [h]
    · exact ⟨rfl, .inl ⟨rfl, rfl, h2, h3⟩⟩
    · exact ⟨rfl, .inr (.inl ⟨rfl, rfl, h2, h3⟩)⟩
  · rw [h4] at h
    cases h

theorem decodeLegal_iff (q : SeqState) : decodeLegal q = true ↔ q = .validOk := by
  cases q <;> simp [decodeLegal]

/-- DECODE decodes a validated record and refuses every other state (43_decoder.md R107). -/
theorem decodeWith_cases (P : Params) (s : State) :
    s.seq = .validOk ∧ decodeWith P s = .next (decodeEffect P s) ∨
    s.seq ≠ .validOk ∧ decodeWith P s = .next (raiseCmdError .seqErr s) := by
  unfold decodeWith
  by_cases h : s.seq = .validOk
  · exact .inl ⟨h, if_pos ((decodeLegal_iff _).mpr h)⟩
  · exact .inr ⟨h, if_neg (fun h' => h ((decodeLegal_iff _).mp h'))⟩

/-- The four arms of the dispatch, by format (43_decoder.md R107). -/
theorem dispatchFormat_cases (P : Params) (f : Byte) (s : State) :
    f = 0 ∧ dispatchFormat P f s = reservedArm s ∨
    1 ≤ f.toNat ∧ f.toNat ≤ 4 ∧ dispatchFormat P f s = uriArm P s ∨
    f = 5 ∧ dispatchFormat P f s = epcArm s ∨
    6 ≤ f.toNat ∧ dispatchFormat P f s = unknownArm s := by
  have h0 : f = 0 ↔ f.toNat = 0 := by rw [← BitVec.toNat_inj]; rfl
  have h5 : f = 5 ↔ f.toNat = 5 := by rw [← BitVec.toNat_inj]; rfl
  unfold dispatchFormat
  by_cases hf0 : f = 0
  · exact .inl ⟨hf0, if_pos hf0⟩
  by_cases hf4 : f.toNat ≤ 4
  · have := mt h0.mpr hf0
    exact .inr (.inl ⟨by omega, hf4, by rw [if_neg hf0, if_pos hf4]⟩)
  by_cases hf5 : f = 5
  · exact .inr (.inr (.inl ⟨hf5, by rw [if_neg hf0, if_neg hf4, if_pos hf5]⟩))
  · have := mt h5.mpr hf5
    exact .inr (.inr (.inr ⟨by omega, by rw [if_neg hf0, if_neg hf4, if_neg hf5]⟩))

/-- The dispatch writes the view and REC alone, and always names a kind (43_decoder.md R109). -/
theorem dispatchFormat_frame (P : Params) (f : Byte) (s : State) :
    dispatchFormat P f s = { s with
      record := (dispatchFormat P f s).record, dvKind := (dispatchFormat P f s).dvKind,
      dvLen := (dispatchFormat P f s).dvLen, dvTerm := (dispatchFormat P f s).dvTerm } ∧
    (dispatchFormat P f s).dvKind ≠ .none := by
  rcases dispatchFormat_cases P f s with ⟨_, h⟩ | ⟨_, _, h⟩ | ⟨_, h⟩ | ⟨_, h⟩ <;> rw [h] <;>
    exact ⟨rfl, fun hk => by cases hk⟩

/-- The scan answers the first terminator of its range, or 14 when the range has none (43_decoder.md R111). -/
theorem scanTerminator_spec (m : Memory) (p count : Nat) :
    (p ≤ scanTerminator m p count ∧ scanTerminator m p count < p + count ∧
      Memory.read m (scanTerminator m p count) = uriTerminator ∧
      ∀ q, p ≤ q → q < scanTerminator m p count → Memory.read m q ≠ uriTerminator) ∨
    (scanTerminator m p count = 14 ∧ ∀ q, p ≤ q → q < p + count → Memory.read m q ≠ uriTerminator) := by
  induction count generalizing p with
  | zero => exact .inr ⟨rfl, fun q h1 h2 => by omega⟩
  | succ count ih =>
    by_cases hp : Memory.read m p = uriTerminator
    · simp only [scanTerminator, hp, if_true]
      exact .inl ⟨le_rfl, by omega, trivial, fun q h1 h2 => by omega⟩
    · simp only [scanTerminator, hp, if_false]
      rcases ih (p + 1) with ⟨h1, h2, h3, h4⟩ | ⟨h1, h2⟩
      · refine .inl ⟨by omega, by omega, h3, fun q hq hlt => ?_⟩
        rcases Nat.eq_or_lt_of_le hq with rfl | hq
        · exact hp
        · exact h4 q hq hlt
      · refine .inr ⟨h1, fun q hq hlt => ?_⟩
        rcases Nat.eq_or_lt_of_le hq with rfl | hq
        · exact hp
        · exact h2 q hq (by omega)

/-- `pos` lies in the window, no earlier byte of the window is a terminator, and before the last offset it is one
(43_decoder.md R111). -/
theorem uriPos_spec (m : Memory) :
    2 ≤ uriPos m ∧ uriPos m ≤ 14 ∧
    (∀ q, 2 ≤ q → q < uriPos m → Memory.read m q ≠ uriTerminator) ∧
    (uriPos m < 14 → Memory.read m (uriPos m) = uriTerminator) := by
  unfold uriPos
  rcases scanTerminator_spec m 2 13 with ⟨h1, h2, h3, h4⟩ | ⟨h1, h2⟩
  · exact ⟨h1, by omega, h4, fun _ => h3⟩
  · rw [h1]
    exact ⟨by omega, le_rfl, fun q hq hlt => h2 q hq (by omega), fun h => by omega⟩

/-- The in-place writes put the two codes at `pos` and `pos + 1` and leave every other byte (43_decoder.md R112). -/
theorem read_uriRecord (P : Params) (m : Memory) (i : Nat) :
    Memory.read (uriRecord P m) i =
      if P.uriInplace = true ∧ i = uriPos m then lineBreak
      else if P.uriInplace = true ∧ i = uriPos m + 1 then nullByte
      else Memory.read m i := by
  unfold uriRecord
  cases P.uriInplace
  · simp
  · by_cases h1 : i = uriPos m
    · have h2 : ¬ uriPos m = uriPos m + 1 := by omega
      simp [Memory.read_write, h1]
    · simp [Memory.read_write, h1]

/-- The record after the in-place writes is the record before, or the record with two writes inside 2..15. -/
theorem uriRecord_cases (P : Params) (m : Memory) :
    uriRecord P m = m ∨
    uriRecord P m = Memory.write (Memory.write m (uriPos m) lineBreak) (uriPos m + 1) nullByte := by
  unfold uriRecord
  cases P.uriInplace <;> simp

/-- How RUN ends: refused, incomplete or mismatched, or decoded, as its constituents end (40_control.md R82). -/
theorem runWith_cases (P : Params) (s : State) :
    P.rawCapBits < bitCount s ∧ runWith P s = .next (raiseCmdError .lenErr s) ∨
    bitCount s ≤ P.rawCapBits ∧ runWith P s =
      andThen (validateWith P (reframeEffect s)) fun t =>
        if t.vres = .valid then decodeWith P t else .next t := by
  unfold runWith
  rcases reframeWith_cases P s with ⟨h, hr⟩ | ⟨h, hr⟩
  · exact .inl ⟨h, by simp [hr, andThen, CmdError.result]⟩
  · exact .inr ⟨h, by simp [hr, andThen, reframeEffect]⟩

/-- A byte written to CMD is a row of format CMD (30_encoding.md R60, R61). -/
theorem decodeCmd_format (b : Byte) : (decodeCmd b).format = .cmd := by
  unfold decodeCmd
  split_ifs <;> rfl

/-- What DECODE leaves, field by field (43_decoder.md R107-R109). -/
theorem decodeEffect_eq (P : Params) (s : State) : decodeEffect P s = { s with
    record := (dispatchFormat P (formatByte s) (commonFields P s)).record
    seq := .decoded
    cmdRes := .ok
    dvKind := (dispatchFormat P (formatByte s) (commonFields P s)).dvKind
    dvFmt := formatByte s
    dvMfr := manufacturerByte s
    mfrKnown := mfrLookup P (manufacturerByte s)
    dvLen := (dispatchFormat P (formatByte s) (commonFields P s)).dvLen
    dvTerm := (dispatchFormat P (formatByte s) (commonFields P s)).dvTerm } := by
  rw [decodeEffect, (dispatchFormat_frame P (formatByte s) (commonFields P s)).1]
  rfl

/-- The offset DV_TERM stores fits its eight bits (43_decoder.md R111). -/
@[simp] theorem toNat_uriPos (m : Memory) : (BitVec.ofNat 8 (uriPos m)).toNat = uriPos m := by
  have h := (uriPos_spec m).2.1
  rw [BitVec.toNat_ofNat]
  omega

/-- The length DV_LEN stores fits its eight bits (43_decoder.md R111). -/
@[simp] theorem toNat_uriLength (m : Memory) :
    (BitVec.ofNat 8 (uriPos m - 2)).toNat = uriPos m - 2 := by
  have h := (uriPos_spec m).2.1
  rw [BitVec.toNat_ofNat]
  omega

/-- VALIDATE leaves the input latches and the host's own fields (42_validator.md R100). -/
theorem validateWith_host {P : Params} {s t : State} (h : validateWith P s = .next t) :
    t.raw = s.raw ∧ t.par = s.par ∧ t.rawNbits = s.rawNbits ∧
    t.pending = s.pending ∧ t.reads = s.reads ∧ t.draws = s.draws := by
  rcases validateWith_cases P s with ⟨_, h2⟩ | ⟨_, _, h2⟩ | ⟨_, _, _, h2⟩ | ⟨_, _, _, h2⟩ <;>
    rw [h2] at h
  · injection h with h; subst h; exact ⟨rfl, rfl, rfl, rfl, rfl, rfl⟩
  · injection h with h; subst h; exact ⟨rfl, rfl, rfl, rfl, rfl, rfl⟩
  · injection h with h
    subst h
    rcases checkCrc_cases s with ⟨_, h⟩ | ⟨_, h⟩ <;> rw [h] <;> exact ⟨rfl, rfl, rfl, rfl, rfl, rfl⟩
  · cases h

/-- DECODE leaves the input latches and the host's own fields (43_decoder.md R109). -/
theorem decodeWith_host {P : Params} {s t : State} (h : decodeWith P s = .next t) :
    t.raw = s.raw ∧ t.par = s.par ∧ t.rawNbits = s.rawNbits ∧
    t.pending = s.pending ∧ t.reads = s.reads ∧ t.draws = s.draws := by
  rcases decodeWith_cases P s with ⟨_, h2⟩ | ⟨_, h2⟩ <;> rw [h2] at h <;> injection h with h <;> subst h
  · rw [decodeEffect_eq]; exact ⟨rfl, rfl, rfl, rfl, rfl, rfl⟩
  · exact ⟨rfl, rfl, rfl, rfl, rfl, rfl⟩

/-- The meanings `exec` dispatches to are those of the reference parameters (00_scope.md R7). -/
theorem exec_eq_execWith : exec = execWith Config.params := by
  funext i s
  cases i <;> rfl

/-- An instruction leaves the input latches and the host's own fields (40_control.md R76). -/
theorem execWith_host {P : Params} {i : Instr} {s t : State} (h : execWith P i s = .next t) :
    t.raw = s.raw ∧ t.par = s.par ∧ t.rawNbits = s.rawNbits ∧
    t.pending = s.pending ∧ t.reads = s.reads ∧ t.draws = s.draws := by
  cases i with
  | reframe =>
    rcases reframeWith_cases P s with ⟨_, h2⟩ | ⟨_, h2⟩ <;>
      rw [execWith, h2] at h <;> injection h with h <;> subst h <;>
      exact ⟨rfl, rfl, rfl, rfl, rfl, rfl⟩
  | validate => exact validateWith_host h
  | decode => exact decodeWith_host h
  | run =>
    rcases runWith_cases P s with ⟨_, h2⟩ | ⟨_, h2⟩ <;> rw [execWith, h2] at h
    · injection h with h; subst h; exact ⟨rfl, rfl, rfl, rfl, rfl, rfl⟩
    · cases hv : validateWith P (reframeEffect s) with
      | fault e => rw [hv] at h; cases h
      | refused e => rw [hv] at h; cases h
      | next v =>
        have hv' := validateWith_host hv
        rw [hv] at h
        simp only [andThen] at h
        split_ifs at h
        · have hd := decodeWith_host h
          simp only [hv'] at hd
          exact hd
        · injection h with h; subst h; exact hv'
  | illegal _ | dffReserved | dffUriHttpWww | dffUriHttpsWww | dffUriHttp | dffUriHttps | dffEpc
  | dffUnknown _ =>
    injection h with h
    subst h
    exact ⟨rfl, rfl, rfl, rfl, rfl, rfl⟩

/-- A command leaves the input latches and the host's own fields (40_control.md R76). -/
theorem issue_host {b : Byte} {s t : State} (h : issue b s = .next t) :
    t.raw = s.raw ∧ t.par = s.par ∧ t.rawNbits = s.rawNbits ∧
    t.pending = s.pending ∧ t.reads = s.reads ∧ t.draws = s.draws := by
  rw [issue, exec_eq_execWith] at h
  exact execWith_host h

/-- A step with nothing waiting changes nothing (60_exceptions.md R128). -/
theorem serveNext_idle (P : Params) (M : Meanings) {s : State} (h : s.pending = []) :
    serveNext P M s = .next s := by
  simp [serveNext, h]

/-- A step serves the oldest waiting event. -/
theorem serveNext_event (P : Params) (M : Meanings) {s : State} {e : BusEvent} {rest : List BusEvent}
    (h : s.pending = e :: rest) : serveNext P M s = serveEvent P M e { s with pending := rest } := by
  simp [serveNext, h]

theorem step_idle {s : State} (h : s.pending = []) : step s = .next s := serveNext_idle _ _ h

theorem step_event {s : State} {e : BusEvent} {rest : List BusEvent} (h : s.pending = e :: rest) :
    step s = serveEvent Config.params exec e { s with pending := rest } := serveNext_event _ _ h

/-- What an event can do: refuse, reset, hand a byte over, or write a register. -/
theorem serveEvent_cases (P : Params) (M : Meanings) (e : BusEvent) (s : State) :
    (∃ r, serveEvent P M e s = .refused r) ∨
    (e = .reset ∧ serveEvent P M e s = .next (resetEvent P s)) ∨
    (∃ a, e = hostRd a ∧ serveEvent P M e s = .next (hostRead (memReadWith P s a) s)) ∨
    (∃ a v, e = hostWr a v ∧ serveEvent P M e s = memWriteWith P M s a v) := by
  rcases e with ⟨agent, bytes, a, d⟩ | _
  · rcases agent with _ | _
    · by_cases hb : bytes = 1
      · subst hb
        rcases d with _ | v
        · exact .inr (.inr (.inl ⟨a, rfl, rfl⟩))
        · exact .inr (.inr (.inr ⟨a, v, rfl, rfl⟩))
      · exact .inl ⟨.otherWidth bytes, by simp [serveEvent, hb]⟩
    · exact .inl ⟨.secondAgent, by simp [serveEvent]⟩
  · exact .inr (.inl ⟨rfl, rfl⟩)

/-- A read is the register the reference map places at the address (20_memory.md R47). -/
theorem memRead_eq (s : State) (a : Addr) : memRead s a = readReg s (regAt Config.params a) := rfl

/-- A write is one to the register the reference map places at the address (20_memory.md R48). -/
theorem memWrite_eq (s : State) (a : Addr) (v : Byte) :
    memWrite s a v = writeReg exec (regAt Config.params a) v s := rfl

/-- What a bus write can do: store in an input latch, issue a command, or nothing (20_memory.md R48). -/
theorem memWriteWith_cases (P : Params) (M : Meanings) (s : State) (a : Addr) (v : Byte) :
    (∃ g, regAt P a = .raw g ∧
      memWriteWith P M s a v = .next { s with raw := Memory.write s.raw g v }) ∨
    (∃ g, regAt P a = .par g ∧
      memWriteWith P M s a v = .next { s with par := Memory.write s.par g (v &&& 0x01) }) ∨
    (regAt P a = .rawNbitsLo ∧
      memWriteWith P M s a v = .next { s with rawNbits := highByte s.rawNbits ++ v }) ∨
    (regAt P a = .rawNbitsHi ∧
      memWriteWith P M s a v = .next { s with rawNbits := v ++ lowByte s.rawNbits }) ∨
    (regAt P a = .cmd ∧ memWriteWith P M s a v = M (decodeCmd v) s) ∨
    memWriteWith P M s a v = .next s := by
  unfold memWriteWith
  cases h : regAt P a <;> simp [writeReg]

/-- The same at the reference parameters. -/
theorem memWrite_cases (s : State) (a : Addr) (v : Byte) :
    (∃ g, regAt Config.params a = .raw g ∧
      memWrite s a v = .next { s with raw := Memory.write s.raw g v }) ∨
    (∃ g, regAt Config.params a = .par g ∧
      memWrite s a v = .next { s with par := Memory.write s.par g (v &&& 0x01) }) ∨
    (regAt Config.params a = .rawNbitsLo ∧
      memWrite s a v = .next { s with rawNbits := highByte s.rawNbits ++ v }) ∨
    (regAt Config.params a = .rawNbitsHi ∧
      memWrite s a v = .next { s with rawNbits := v ++ lowByte s.rawNbits }) ∨
    (regAt Config.params a = .cmd ∧ memWrite s a v = issue v s) ∨
    memWrite s a v = .next s := memWriteWith_cases Config.params exec s a v

/-- A step takes the oldest event off and leaves the later ones. -/
theorem stepWith_pending {P : Params} {s t : State} (h : stepWith P s = .next t) :
    t.pending = s.pending.tail := by
  cases hp : s.pending with
  | nil =>
    rw [stepWith, serveNext_idle _ _ hp] at h
    injection h with h
    subst h
    exact hp
  | cons e rest =>
    rw [stepWith, serveNext_event _ _ hp] at h
    rcases serveEvent_cases P (execWith P) e { s with pending := rest } with
      ⟨r, h2⟩ | ⟨_, h2⟩ | ⟨a, _, h2⟩ | ⟨a, v, _, h2⟩ <;> rw [h2] at h
    · cases h
    · injection h with h; subst h; rfl
    · injection h with h; subst h; rfl
    · rcases memWriteWith_cases P (execWith P) { s with pending := rest } a v with
        ⟨_, _, h3⟩ | ⟨_, _, h3⟩ | ⟨_, h3⟩ | ⟨_, h3⟩ | ⟨_, h3⟩ | h3 <;> rw [h3] at h <;>
        first
        | exact (execWith_host h).2.2.2.1
        | (injection h with h; subst h; rfl)

theorem step_pending {s t : State} (h : step s = .next t) : t.pending = s.pending.tail := by
  rw [step, exec_eq_execWith] at h
  exact stepWith_pending h

/-- The single-byte rows name no array (20_memory.md R44). -/
theorem controlReg_mem (a : Addr) : controlReg a = .reserved ∨ ∃ b, (b, controlReg a) ∈ controlMap := by
  unfold controlReg
  cases h : controlMap.lookup a with
  | none => exact .inl rfl
  | some r =>
    obtain ⟨b, hb⟩ : ∃ b, (b, r) ∈ controlMap := by
      generalize controlMap = l at h
      induction l with
      | nil => simp at h
      | cons x l ih =>
        by_cases hx : a == x.1
        · simp only [List.lookup, hx] at h
          exact ⟨x.1, by rw [← Option.some.inj h]; simp⟩
        · have hx : (a == x.1) = false := by simpa using hx
          simp only [List.lookup, hx] at h
          obtain ⟨b, hb⟩ := ih h
          exact ⟨b, by simp [hb]⟩
    exact .inr ⟨b, by simpa using hb⟩

theorem controlReg_ne (a : Addr) (n : Nat) :
    controlReg a ≠ .raw n ∧ controlReg a ≠ .par n ∧ controlReg a ≠ .record n := by
  rcases controlReg_mem a with h | ⟨b, h⟩
  · simp [h]
  · refine ⟨fun h' => ?_, fun h' => ?_, fun h' => ?_⟩ <;> rw [h'] at h <;> simp [controlMap] at h

/-- An index the map answers lies in its array (20_memory.md R44). -/
theorem regAt_bounds (P : Params) (a : Addr) :
    (∀ g, regAt P a = .raw g → g < P.rawBytes) ∧ (∀ g, regAt P a = .par g → g < P.parSlots) ∧
    (∀ i, regAt P a = .record i → i < P.recBytes) := by
  have hc := controlReg_ne a
  unfold regAt
  refine ⟨fun g h => ?_, fun g h => ?_, fun i h => ?_⟩ <;> split_ifs at h
  · injection h with h; omega
  · exact absurd h (hc g).1
  · injection h with h; omega
  · exact absurd h (hc g).2.1
  · injection h with h; omega
  · exact absurd h (hc i).2.2

end Sys2Proof.Machine
end

