-- ==== Sys2Proof/Laws/PerInstr.lean ====
section
/-! SUPPORT. Per instruction: every form is one byte long, with no operand word after it (30_encoding.md R59, R70). -/

namespace Sys2Proof.Laws.OneByte

/-- The encoding is exactly the instruction's one byte. -/
def Statement (i : Instr) : Prop := (encode i).length = 1

theorem reframe : Statement .reframe := rfl
theorem validate : Statement .validate := rfl
theorem decode : Statement .decode := rfl
theorem run : Statement .run := rfl
theorem illegal (opcode : Byte) : Statement (.illegal opcode) := rfl
theorem dffReserved : Statement .dffReserved := rfl
theorem dffUriHttpWww : Statement .dffUriHttpWww := rfl
theorem dffUriHttpsWww : Statement .dffUriHttpsWww := rfl
theorem dffUriHttp : Statement .dffUriHttp := rfl
theorem dffUriHttps : Statement .dffUriHttps := rfl
theorem dffEpc : Statement .dffEpc := rfl
theorem dffUnknown (dff : Byte) : Statement (.dffUnknown dff) := rfl

end Sys2Proof.Laws.OneByte
end

