-- ==== Sys2Proof/Laws/RegisterMap.lean ====
section
/-! SUPPORT. The register map at each of its addresses (20_memory.md R44), for any parameters that meet 00_scope.md R8 and
at the reference values. -/

namespace Sys2Proof.Machine

/-- The RAW window of any parameters. -/
theorem regAt_rawWindow {P : Params} {a : Addr} (h : a.toNat < P.rawBytes) : regAt P a = .raw a.toNat :=
  if_pos h

/-- The PAR window of any parameters. -/
theorem regAt_parWindow {P : Params} (hP : P.Ok) {a : Addr} (h1 : 0x40 ≤ a.toNat)
    (h2 : a.toNat < 0x40 + P.parSlots) : regAt P a = .par (a.toNat - 0x40) := by
  obtain ⟨-, hr, -, -⟩ := hP
  rw [regAt, if_neg (by omega), if_pos ⟨h1, h2⟩]

/-- The REC window of any parameters. -/
theorem regAt_recordWindow {P : Params} (hP : P.Ok) {a : Addr} (h1 : 0xC0 ≤ a.toNat)
    (h2 : a.toNat < 0xC0 + P.recBytes) : regAt P a = .record (a.toNat - 0xC0) := by
  obtain ⟨-, hr, hp, -⟩ := hP
  rw [regAt, if_neg (by omega), if_neg (by omega), if_pos ⟨h1, h2⟩]

/-- The single-byte rows stand at the same addresses for any parameters. -/
theorem regAt_control {P : Params} (hP : P.Ok) {a : Addr} (h1 : 0x80 ≤ a.toNat) (h2 : a.toNat < 0xC0) :
    regAt P a = controlReg a := by
  obtain ⟨-, hr, hp, -⟩ := hP
  rw [regAt, if_neg (by omega), if_neg (by omega), if_neg (by omega)]

/-- Outside 0x80-0xBF there is no single-byte row. -/
theorem controlReg_reserved : ∀ a : Addr, a.toNat < 0x80 ∨ 0xC0 ≤ a.toNat → controlReg a = .reserved := by
  decide +kernel

/-- An address after a window and before the next range is reserved, for any parameters. -/
theorem regAt_reserved {P : Params} (hP : P.Ok) {a : Addr}
    (h : P.rawBytes ≤ a.toNat ∧ a.toNat < 0x40 ∨ 0x40 + P.parSlots ≤ a.toNat ∧ a.toNat < 0x80 ∨
      0xC0 + P.recBytes ≤ a.toNat) : regAt P a = .reserved := by
  obtain ⟨-, hr, hp, -⟩ := hP
  rw [regAt, if_neg (by omega), if_neg (by omega), if_neg (by omega), controlReg_reserved a (by omega)]

@[simp] theorem regAt_rawNbitsLo : regAt Config.params 0x80#8 = .rawNbitsLo := by decide
@[simp] theorem regAt_rawNbitsHi : regAt Config.params 0x81#8 = .rawNbitsHi := by decide
@[simp] theorem regAt_cmd : regAt Config.params 0x84#8 = .cmd := by decide
@[simp] theorem regAt_status : regAt Config.params 0x85#8 = .status := by decide
@[simp] theorem regAt_cmdRes : regAt Config.params 0x86#8 = .cmdRes := by decide
@[simp] theorem regAt_vres : regAt Config.params 0x87#8 = .vres := by decide
@[simp] theorem regAt_eblLo : regAt Config.params 0x88#8 = .eblLo := by decide
@[simp] theorem regAt_eblHi : regAt Config.params 0x89#8 = .eblHi := by decide
@[simp] theorem regAt_crcLo : regAt Config.params 0x8A#8 = .crcLo := by decide
@[simp] theorem regAt_crcHi : regAt Config.params 0x8B#8 = .crcHi := by decide
@[simp] theorem regAt_dvKind : regAt Config.params 0x8C#8 = .dvKind := by decide
@[simp] theorem regAt_dvFmt : regAt Config.params 0x8D#8 = .dvFmt := by decide
@[simp] theorem regAt_dvMfr : regAt Config.params 0x8E#8 = .dvMfr := by decide
@[simp] theorem regAt_dvFlags : regAt Config.params 0x8F#8 = .dvFlags := by decide
@[simp] theorem regAt_dvLen : regAt Config.params 0x90#8 = .dvLen := by decide
@[simp] theorem regAt_dvTerm : regAt Config.params 0x91#8 = .dvTerm := by decide

/-- The RAW window. -/
theorem regAt_raw {a : Addr} (h : a.toNat ≤ 0x20) : regAt Config.params a = .raw a.toNat := by
  have hr : Config.params.rawBytes = 33 := by decide
  rw [regAt, if_pos (by omega)]

/-- The PAR window. -/
theorem regAt_par {a : Addr} (h1 : 0x40 ≤ a.toNat) (h2 : a.toNat ≤ 0x60) :
    regAt Config.params a = .par (a.toNat - 0x40) := by
  have hr : Config.params.rawBytes = 33 := by decide
  have hp : Config.params.parSlots = 33 := by decide
  rw [regAt, if_neg (by omega), if_pos (by omega)]

/-- The REC window. -/
theorem regAt_record {a : Addr} (h : 0xC0 ≤ a.toNat) :
    regAt Config.params a = .record (a.toNat - 0xC0) := by
  have hr : Config.params.rawBytes = 33 := by decide
  have hp : Config.params.parSlots = 33 := by decide
  have hn : Config.params.recBytes = 64 := by decide
  rw [regAt, if_neg (by omega), if_neg (by omega), if_pos (by omega)]

/-- The address of a register; a reserved one has none of its own and answers 0x82. -/
def regAddress : HostReg → Addr
  | .raw g => BitVec.ofNat 8 g
  | .par g => BitVec.ofNat 8 (0x40 + g)
  | .rawNbitsLo => 0x80
  | .rawNbitsHi => 0x81
  | .cmd => 0x84
  | .status => 0x85
  | .cmdRes => 0x86
  | .vres => 0x87
  | .eblLo => 0x88
  | .eblHi => 0x89
  | .crcLo => 0x8A
  | .crcHi => 0x8B
  | .dvKind => 0x8C
  | .dvFmt => 0x8D
  | .dvMfr => 0x8E
  | .dvFlags => 0x8F
  | .dvLen => 0x90
  | .dvTerm => 0x91
  | .record i => BitVec.ofNat 8 (0xC0 + i)
  | .reserved => 0x82

/-- The map places a register that is not reserved at its own address alone. -/
theorem regAddress_regAt : ∀ a : Addr,
    regAddress (regAt Config.params a) = a ∨ regAt Config.params a = .reserved := by
  decide +kernel

/-- The windows and rows of the map do not overlap: no two addresses name one register but the reserved ones. -/
theorem regAt_injective (a b : Addr) (h : regAt Config.params a = regAt Config.params b) :
    a = b ∨ regAt Config.params a = .reserved := by
  rcases regAddress_regAt a with ha | ha
  · rcases regAddress_regAt b with hb | hb
    · exact .inl (ha.symm.trans ((congrArg regAddress h).trans hb))
    · exact .inr (h.trans hb)
  · exact .inr ha

end Sys2Proof.Machine
end

