-- ==== Sys2Proof/Tests/Slice0.lean ====
section
/-! SUPPORT. Tests against the spec's own worked examples and vectors (95_test_vectors.md), and for each statement with
hypotheses a concrete state and operands that meet them. Expected values come from spec/, never from the model. -/

namespace Sys2Proof.Tests

open Sys2Proof.Machine

/-! Helpers. -/

/-- An array that starts with the given bytes. -/
def array (bytes : List Byte) : Memory := Memory.ofFn (fun i => bytes.getD i 0) bytes.length

/-- After reset, with a capture of `n` data bits in the input latches. -/
def capture (n : Half) (raw : List Byte) (par : List Bool) : State :=
  { State.reset with
    raw := array raw
    par := array (par.map fun b => (BitVec.ofBool b).zeroExtend 8)
    rawNbits := n }

/-- A record of `n` bits in REC, with SEQ at `q`. -/
def recorded (q : SeqState) (n : Half) (bytes : List Byte) : State :=
  { State.reset with record := array bytes, ebl := n, seq := q }

/-- A validated record. -/
def validated (n : Half) (bytes : List Byte) : State :=
  { recorded .validOk n bytes with vres := .valid }

/-- The outcome is a next state with the property. -/
def gives (r : Host.Outcome State Fault Refusal) (p : State → Bool) : Bool :=
  match r with
  | .next t => p t
  | .fault _ => false
  | .refused _ => false

/-- Such an outcome names its state. -/
theorem next_of_gives {r : Host.Outcome State Fault Refusal} {p : State → Bool} (h : gives r p = true) :
    ∃ t, r = .next t ∧ p t = true := by
  cases r with
  | next t => exact ⟨t, rfl, h⟩
  | fault e => cases h
  | refused e => cases h

/-- The state after reset with one event waiting. -/
def waiting (e : BusEvent) : State := { State.reset with pending := [e] }

/-- Record V-A (95_test_vectors.md 2.3). -/
def recordA : List Byte :=
  [0xB7, 0x01, 0x65, 0x78, 0x61, 0x6D, 0x70, 0x6C, 0x65, 0x2E, 0x63, 0x6F, 0x6D, 0xFE, 0x80, 0xD9]

/-- RAW of V-A. -/
def rawA : List Byte :=
  [0x76, 0xA0, 0xD4, 0x61, 0xB4, 0x3A, 0x6C, 0xA6, 0x3A, 0xB1, 0xDE, 0xFB, 0x0B, 0x6C, 0x01]

/-- PAR[0] to PAR[12] of V-A. -/
def parA : List Bool :=
  [false, true, true, false, true, false, false, false, true, true, false, true, false]

/-- The capture V-A. -/
def captureA : State := capture 113 rawA (parA ++ [false])

/-- The capture of K8: V-A with PAR[13] = 1. -/
def captureK8 : State := capture 113 rawA (parA ++ [true])

/-- Record V-B. -/
def recordB : List Byte :=
  [0xB7, 0x05, 0x00, 0x11, 0x22, 0x33, 0x44, 0x55, 0x66, 0x77, 0x88, 0x99, 0xAA, 0xBB, 0x64, 0xEA]

/-- Record V-C. -/
def recordC : List Byte := [0xB7, 0, 0, 0, 0, 0, 0, 0, 0, 0, 0, 0, 0, 0, 0xD9, 0x38]

/-- Record V-D. -/
def recordD : List Byte :=
  [0x81, 0x07, 0x10, 0x11, 0x12, 0x13, 0x14, 0x15, 0x16, 0x17, 0x18, 0x19, 0x1A, 0x1B, 0x47, 0xE0]

/-- Record V-E. -/
def recordE : List Byte :=
  [0xB7, 0x03, 0x61, 0x62, 0x63, 0x64, 0x65, 0x66, 0x67, 0x68, 0x69, 0x6A, 0x6B, 0x6C, 0xE2, 0x0A]

/-- Record V-F. -/
def recordF : List Byte :=
  [0xB7, 0x04, 0xFE, 0x41, 0x41, 0x41, 0x41, 0x41, 0x41, 0x41, 0x41, 0x41, 0x41, 0x41, 0x46, 0x80]

/-- Record V-J. -/
def recordJ : List Byte :=
  [0xB7, 0x02, 0x61, 0x62, 0xFE, 0x63, 0x64, 0xFE, 0, 0, 0, 0, 0, 0, 0xC8, 0x51]

/-! WellFormed: the terms no byte encodes are refused, the neighbours are not (30_encoding.md R61, R67). -/

theorem test_illformed_illegal :
    Instr.wf (.illegal 0x01) = false ∧ Instr.wf (.illegal 0x02) = false ∧
    Instr.wf (.illegal 0x03) = false ∧ Instr.wf (.illegal 0x04) = false := by decide

theorem test_illformed_dffUnknown :
    Instr.wf (.dffUnknown 0x00) = false ∧ Instr.wf (.dffUnknown 0x04) = false ∧
    Instr.wf (.dffUnknown 0x05) = false := by decide

/-! Decoding, on bytes written out bit by bit from 30_encoding.md R60, R61, R67. -/

theorem test_decode_cmd :
    decodeBytes .cmd [0b00000001#8] = .ok (.reframe, []) ∧
    decodeBytes .cmd [0b00000010#8] = .ok (.validate, []) ∧
    decodeBytes .cmd [0b00000011#8] = .ok (.decode, []) ∧
    decodeBytes .cmd [0b00000100#8] = .ok (.run, []) ∧
    decodeBytes .cmd [0b00000101#8] = .ok (.illegal 0b00000101#8, []) ∧
    decodeBytes .cmd [] = .error .noByte := ⟨rfl, rfl, rfl, rfl, rfl, rfl⟩

theorem test_decode_dff :
    decodeBytes .dff [0b00000000#8] = .ok (.dffReserved, []) ∧
    decodeBytes .dff [0b00000001#8] = .ok (.dffUriHttpWww, []) ∧
    decodeBytes .dff [0b00000010#8] = .ok (.dffUriHttpsWww, []) ∧
    decodeBytes .dff [0b00000011#8] = .ok (.dffUriHttp, []) ∧
    decodeBytes .dff [0b00000100#8] = .ok (.dffUriHttps, []) ∧
    decodeBytes .dff [0b00000101#8] = .ok (.dffEpc, []) ∧
    decodeBytes .dff [0b00000110#8] = .ok (.dffUnknown 0b00000110#8, []) :=
  ⟨rfl, rfl, rfl, rfl, rfl, rfl, rfl⟩

/-! Commands (95_test_vectors.md 2.1, 2.2, 2.3, 2.5). -/

/-- F11. -/
theorem test_reframe_F11 :
    gives (exec .reframe (capture 8 [0xA5] [true])) (fun t =>
      t.ebl = 10 && Memory.slice t.record 0 3 = [0xD2, 0xC0, 0x00]) = true := by decide +kernel

/-- F16: the largest capture. -/
theorem test_reframe_F16 :
    gives (exec .reframe (capture 264 (List.replicate 33 0xFF) (List.replicate 33 true))) (fun t =>
      t.ebl = 298 && Memory.slice t.record 0 39 = List.replicate 37 0xFF ++ [0xC0, 0x00]) = true := by
  decide +kernel

/-- F19 and K7: the capture V-A, reframed and validated. -/
theorem test_validate_K7 :
    gives (andThen (exec .reframe captureA) (exec .validate)) (fun t =>
      t.ebl = 128 && Memory.slice t.record 0 16 = recordA && t.vres = .valid && t.crc = 0xD980 &&
      t.seq = .validOk) = true := by decide +kernel

/-- K10. -/
theorem test_validate_K10 :
    gives (exec .validate (recorded .reframed 128 [0x80])) (fun t =>
      t.vres = .crcMismatch && t.crc = 0x3B36 && t.seq = .validFail) = true := by decide +kernel

/-- V-E: no terminator in the window; both CRC bytes are overwritten. -/
theorem test_decode_VE :
    gives (exec .decode (validated 128 recordE)) (fun t =>
      t.dvKind = .uri && t.dvLen = 12 && t.dvTerm = 14 &&
      Memory.slice t.record 0 16 = recordE.take 14 ++ [0x0A, 0x00]) = true := by decide +kernel

/-- V-D and its rendering, from the text of 95_test_vectors.md. -/
theorem test_decode_VD :
    gives (exec .decode (validated 128 recordD)) (fun t =>
      t.dvKind = .unknown && t.dvFmt = 0x07 && t.dvMfr = 0x81 && !t.mfrKnown && t.dvLen = 12 &&
      render t = .success ("101112131415161718191a1b".toList.map fun c => BitVec.ofNat 8 c.toNat)) = true := by
  decide +kernel

/-- U1. -/
theorem test_run_U1 :
    gives (exec .run captureA) (fun t =>
      t.ebl = 128 && t.vres = .valid && t.crc = 0xD980 && t.seq = .decoded && t.dvKind = .uri &&
      t.dvMfr = 0xB7 && t.mfrKnown && t.dvLen = 11 && t.dvTerm = 13 &&
      Memory.slice t.record 0 16 = recordA.take 13 ++ [0x0A, 0x00, 0xD9] &&
      render t = .success ("http://www.example.com".toList.map fun c => BitVec.ofNat 8 c.toNat)) = true := by
  decide +kernel

/-- U3. -/
theorem test_run_U3 :
    gives (exec .run captureK8) (fun t =>
      t.vres = .crcMismatch && t.crc = 0xD980 && t.seq = .validFail && t.cmdRes = .ok &&
      t.dvKind = .none) = true := by decide +kernel

/-- B1. -/
theorem test_illegal_B1 :
    gives (step (waiting (hostWr 0x84 0x00))) (fun t =>
      t.cmdRes = .illegalCmd && t.errSeen && memRead t 0x85 = 0x08) = true := by decide +kernel

/-- V-C. -/
theorem test_dffReserved_VC :
    gives (exec .decode (validated 128 recordC)) (fun t =>
      t.dvKind = .reserved && t.dvLen = 0 && t.dvTerm = 0 && render t = .reservedFormat &&
      Memory.slice t.record 0 16 = recordC) = true := by decide +kernel

/-- V-A, the arm of format 0x01 alone. -/
theorem test_dffUriHttpWww_VA :
    gives (exec .dffUriHttpWww (recorded .validOk 128 recordA)) (fun t =>
      t.dvLen = 11 && t.dvTerm = 13) = true := by decide +kernel

/-- V-J: two terminators, the first wins. -/
theorem test_dffUriHttpsWww_VJ :
    gives (exec .dffUriHttpsWww (recorded .validOk 128 recordJ)) (fun t =>
      t.dvLen = 2 && t.dvTerm = 4 &&
      Memory.slice t.record 0 16 =
        [0xB7, 0x02, 0x61, 0x62, 0x0A, 0x00, 0x64, 0xFE, 0, 0, 0, 0, 0, 0, 0xC8, 0x51]) = true := by
  decide +kernel

/-- V-E, the arm of format 0x03 alone. -/
theorem test_dffUriHttp_VE :
    gives (exec .dffUriHttp (recorded .validOk 128 recordE)) (fun t =>
      t.dvLen = 12 && t.dvTerm = 14) = true := by decide +kernel

/-- V-F: an empty payload. -/
theorem test_dffUriHttps_VF :
    gives (exec .dffUriHttps (recorded .validOk 128 recordF)) (fun t =>
      t.dvLen = 0 && t.dvTerm = 2 &&
      Memory.slice t.record 0 5 = [0xB7, 0x04, 0x0A, 0x00, 0x41]) = true := by decide +kernel

/-- V-B and its rendering. -/
theorem test_dffEpc_VB :
    gives (exec .decode (validated 128 recordB)) (fun t =>
      t.dvKind = .epc && t.dvLen = 12 && t.dvTerm = 0 &&
      render t = .success ("00112233445566778899aabb".toList.map fun c => BitVec.ofNat 8 c.toNat)) = true := by
  decide +kernel

/-- V-G: a 32-byte record. -/
theorem test_dffUnknown_VG :
    gives (exec (.dffUnknown 0x07) (recorded .validOk 256 [0xB7, 0x07])) (fun t =>
      t.dvKind = .unknown && t.dvLen = 28 && t.dvTerm = 0) = true := by decide +kernel

/-! The host bus (95_test_vectors.md 2.4). -/

/-- B3. -/
theorem test_bus_B3 :
    gives (runSteps 2 { State.reset with pending := [hostWr 0x40 0xFF, hostRd 0x40] }) (fun t =>
      t.reads = [0x01]) = true := by decide +kernel

/-- B9: the two-byte registers low byte first, after the VALIDATE of V-A. -/
theorem test_bus_B9 :
    memRead { State.reset with ebl := 0x0080, crc := 0xD980 } 0x88 = 0x80 ∧
    memRead { State.reset with ebl := 0x0080, crc := 0xD980 } 0x89 = 0x00 ∧
    memRead { State.reset with ebl := 0x0080, crc := 0xD980 } 0x8A = 0x80 ∧
    memRead { State.reset with ebl := 0x0080, crc := 0xD980 } 0x8B = 0xD9 := by decide

/-- A host program: SETN 113, then the count read back (30_encoding.md R72). -/
theorem test_host_program :
    gives (runSteps 4 (loadProgram [.setN 113, .rd16 0x80] State.reset)) (fun t =>
      t.rawNbits = 113 && t.reads = [0x71, 0x00]) = true := by decide +kernel

/-- The first instruction after reset runs (log 1). -/
theorem test_first_command :
    gives (step (State.reset.withFetchWord 8 0x04)) (fun t =>
      t.ebl = 1 && t.vres = .incomplete && t.seq = .validFail) = true := by decide +kernel

/-! Witnesses: each names the statement whose hypotheses it meets, at the boundary values of their ranges. -/

theorem test_witness_DecodeAndEncodeAgree :
    Instr.wf (.illegal 0x00) = true ∧ Instr.wf (.illegal 0x05) = true ∧
    Instr.wf (.illegal 0xFF) = true ∧ Instr.wf (.dffUnknown 0x06) = true ∧
    Instr.wf (.dffUnknown 0xFF) = true ∧ Instr.wf .run = true ∧ Instr.wf .dffEpc = true := by decide

theorem test_witness_IllegalCommandChangesOnlyTheErrorFields :
    ∀ b ∈ ([0x00, 0x05, 0xFF] : List Byte), b = 0x00 ∨ 0x05 ≤ b.toNat := by decide

theorem test_witness_StepRunsTheCommandWritten :
    (waiting (hostWr 0x84 0x04)).pending = hostWr 0x84 0x04 :: [] ∧
    decodeTableWord 8 0x04 = some .run ∧ decodeTableWord 8 0xFF = some (.illegal 0xFF) := by decide

theorem test_witness_StepServesReadsWritesAndIdles :
    (waiting (hostRd 0x85)).pending = hostRd 0x85 :: [] ∧
    (waiting (hostWr 0x00 0xA5)).pending = hostWr 0x00 0xA5 :: [] ∧
    State.reset.pending = [] := by decide

theorem test_witness_OtherWidthsAndAgentsAreRefused :
    (waiting (.access .other 1 0x00 .read)).pending = .access .other 1 0x00 .read :: [] ∧
    (waiting (.access .owner 2 0x80 .read)).pending = .access .owner 2 0x80 .read :: [] ∧
    (2 : Nat) ≠ 1 ∧ (0 : Nat) ≠ 1 := by decide

theorem test_witness_ResetEventRestoresTheRegisters :
    (waiting .reset).pending = .reset :: [] := by decide

theorem test_witness_InvariantHoldsAtReset :
    ArraysOk (State.atReset [(0, 0xA5), (32, 0xFF)] [(32, 0x01)] [(0, 0x80), (63, 0xFF)]) := by decide

/-- A state with a validated record meets the invariant. -/
theorem stateInv_captureA : gives (andThen (exec .reframe captureA) (exec .validate)) (fun t =>
    decide (ArraysOk t) && decide (SequencerOk t) && decide (LengthOk Config.params t) && decide (RecordOk Config.params t) &&
    decide (CrcOk t) && decide (ViewOk Config.params t) && decide (ErrorBitOk t)) = true := by
  decide +kernel

theorem stateInv_waiting (e : BusEvent) : StateInv (waiting e) where
  arrays := (by decide : ArraysOk State.reset)
  sequencer := (by decide : SequencerOk State.reset)
  length := (by decide : LengthOk Config.params State.reset)
  record := (by decide : RecordOk Config.params State.reset)
  crc := (by decide : CrcOk State.reset)
  view := (by decide : ViewOk Config.params State.reset)
  errorBit := (by decide : ErrorBitOk State.reset)

/-- P_RAW_CAP_BITS 12, P_REC_BYTES 16, P_URI_INPLACE false, an empty P_MFR_TABLE. -/
def smallParams : Params := { rawCapBits := 12, recBytes := 16, uriInplace := false, mfrTable := [] }

/-- The largest windows the register map is defined for (00_scope.md R8). -/
def largeParams : Params := { rawCapBits := 455, recBytes := 64 }

theorem test_parameters_ok : smallParams.Ok ∧ largeParams.Ok ∧ Config.params.Ok := by decide

/-- A capture the reference capacity admits is over this one's (41_reframer.md R89). -/
theorem test_parameters_length :
    gives (stepWith smallParams { waiting (hostWr 0x84 0x01) with rawNbits := 13 }) (fun t =>
      t.cmdRes = .lenErr) = true ∧
    gives (step { waiting (hostWr 0x84 0x01) with rawNbits := 13 }) (fun t =>
      t.cmdRes = .ok) = true := by decide +kernel

/-- V-A with P_URI_INPLACE false keeps REC (95_test_vectors.md 2.3). -/
theorem test_parameters_inplace :
    gives (stepWith smallParams { validated 128 recordA with pending := [hostWr 0x84 0x03] }) (fun t =>
      Memory.slice t.record 0 16 = recordA && t.dvTerm = 13 && t.mfrKnown = false) = true := by
  decide +kernel

theorem stateInvWith_waiting (e : BusEvent) : StateInvWith smallParams (waiting e) where
  arrays := (by decide : ArraysOkWith smallParams State.reset)
  sequencer := (by decide : SequencerOk State.reset)
  length := (by decide : LengthOk smallParams State.reset)
  record := (by decide : RecordOk smallParams State.reset)
  crc := (by decide : CrcOk State.reset)
  view := (by decide : ViewOk smallParams State.reset)
  errorBit := (by decide : ErrorBitOk State.reset)

theorem test_witness_EveryStepKeepsTheInvariantForEveryParameterSet :
    smallParams.Ok ∧ StateInvWith smallParams (waiting (hostWr 0x84 0x01)) ∧
    ArraysOkWith smallParams (State.atReset [(1, 0xFF)] [(0, 0x01)] [(15, 0xFF)]) ∧
    ∃ t, stepWith smallParams (waiting (hostWr 0x84 0x01)) = .next t :=
  ⟨by decide, stateInvWith_waiting _, by decide, _, rfl⟩

theorem test_witness_StepServesTheHostForEveryParameterSet :
    smallParams.Ok ∧ (waiting (hostWr 0x84 0x04)).pending = hostWr 0x84 0x04 :: [] ∧
    (waiting (hostRd 0x00)).pending = hostRd 0x00 :: [] ∧
    (waiting (hostWr 0x40 0x01)).pending = hostWr 0x40 0x01 :: [] ∧
    (waiting .reset).pending = .reset :: [] ∧ State.reset.pending = [] := by decide

/-- Both ends of each range: the windows of the small and the large set, and the reserved addresses after them. -/
theorem test_witness_EveryParameterSetHasItsRegisterMap :
    smallParams.rawBytes = 2 ∧ smallParams.parSlots = 1 ∧ largeParams.rawBytes = 57 ∧
    regAt smallParams 0x01 = .raw 1 ∧ regAt smallParams 0x02 = .reserved ∧
    regAt smallParams 0x3F = .reserved ∧ regAt smallParams 0x40 = .par 0 ∧
    regAt smallParams 0x41 = .reserved ∧ regAt smallParams 0x7F = .reserved ∧
    regAt smallParams 0xCF = .record 15 ∧ regAt smallParams 0xD0 = .reserved ∧
    regAt smallParams 0xFF = .reserved ∧ regAt largeParams 0x38 = .raw 56 ∧
    regAt largeParams 0x39 = .reserved ∧ regAt largeParams 0xFF = .record 63 := by decide

theorem test_witness_EveryStepKeepsTheInvariant :
    StateInv (waiting (hostWr 0x84 0x01)) ∧
    ∃ t, step (waiting (hostWr 0x84 0x01)) = .next t :=
  ⟨stateInv_waiting _, _, rfl⟩

theorem test_witness_InvariantStatesNeverFault :
    StateInv (waiting (hostWr 0x84 0x02)) ∧ StateInv (waiting (.access .owner 4 0xFF .read)) :=
  ⟨stateInv_waiting _, stateInv_waiting _⟩

theorem test_witness_SequencingTable :
    State.reset.seq = .idle ∧ (recorded .decoded 128 []).seq = .decoded ∧
    (recorded .reframed 1 []).seq ≠ .validOk ∧
    (recorded .reframed 1 []).seq = .reframed ∧
    gives (exec .validate (recorded .reframed 1 [])) (fun _ => true) = true ∧
    (validated 128 recordC).seq = .validOk ∧
    gives (exec .decode (validated 128 recordC)) (fun _ => true) = true := by decide +kernel

theorem test_witness_CommandsEndInErrorOrSuccess :
    (∃ t, issue 0x00 State.reset = .next t) ∧ (∃ t, issue 0x01 State.reset = .next t) :=
  ⟨⟨_, rfl⟩, ⟨_, rfl⟩⟩

theorem test_witness_ErrorBitIsSticky :
    (∃ t, issue 0x02 State.reset = .next t ∧ t.cmdRes ≠ .ok) ∧
    (∃ s t : State, s.errSeen = true ∧ s.pending.head? ≠ some .reset ∧ step s = .next t) ∧
    (∃ t, (waiting .reset).pending.head? = some .reset ∧ step (waiting .reset) = .next t) :=
  ⟨⟨_, rfl, by decide⟩, ⟨raiseCmdError .lenErr (waiting (hostWr 0x84 0x01)), _, rfl, by decide, rfl⟩,
    ⟨_, rfl, rfl⟩⟩

theorem test_witness_AnErrorFreeRunRefusedNothing :
    StateInv (waiting (hostWr 0x84 0x04)) ∧ BusEvent.reset ∉ (waiting (hostWr 0x84 0x04)).pending ∧
    ∃ t, runSteps 1 (waiting (hostWr 0x84 0x04)) = .next t ∧ NoCommandRefused t :=
  ⟨stateInv_waiting _, by decide, _, rfl, rfl⟩

theorem test_witness_OverlongCaptureIsRefused :
    Config.params.rawCapBits < (capture 265 [] []).rawNbits.toNat ∧
    Config.params.rawCapBits < (capture 0xFFFF [] []).rawNbits.toNat := by decide

/-- ReframeClearsTheOldResults, ReframeEffectiveBitLength, ReframeClosedForm, ReframeRoundTrip, ReframeSetsTheStartBit,
ReframeDependsOnTheCaptureAlone, RunCompletes: the least, the greatest, a partial and a complete length. -/
theorem test_witness_Reframe :
    ∀ n ∈ [0, 1, 113, 227, 263, 264],
      (capture (BitVec.ofNat 16 n) [] []).rawNbits.toNat ≤ Config.params.rawCapBits := by decide

theorem test_witness_ReframeEffectiveBitLength :
    Config.params.Ok ∧ Params.Ok { rawCapBits := 12, recBytes := 2 } ∧
    (capture 12 [] []).rawNbits.toNat ≤ 12 := by decide

/-- F4 and F5. -/
theorem test_witness_ReframeDependsOnTheCaptureAlone :
    (capture 3 [0xFD] []).rawNbits = (capture 3 [0x05] []).rawNbits ∧
    ∀ k < 3, (Memory.read (capture 3 [0xFD] []).raw 0).getLsbD k
      = (Memory.read (capture 3 [0x05] []).raw 0).getLsbD k := by decide

theorem test_witness_FirstCommandAfterReset :
    State.atReset (array [0xFF]) (array [0x01]) (array [0xFF]) =
      State.atReset [(0, 0xFF)] [(0, 0x01)] [(0, 0xFF)] := by decide

/-- ValidateIncomplete: both sides of 128, the longest, in each of the three states. -/
theorem test_witness_ValidateIncomplete :
    (∀ n ∈ [1, 127, 129, 298], (recorded .reframed (BitVec.ofNat 16 n) []).ebl.toNat % 128 ≠ 0) ∧
    (recorded .reframed 1 []).seq = .reframed ∧ (recorded .validOk 1 []).seq = .validOk ∧
    (recorded .validFail 1 []).seq = .validFail := by decide

/-- ValidateComparesTheStoredCrc: the shortest and the longest length. -/
theorem test_witness_CompleteLengths :
    ∀ n ∈ [128, 512], (recorded .reframed (BitVec.ofNat 16 n) []).ebl.toNat % 128 = 0 ∧
      128 ≤ (recorded .reframed (BitVec.ofNat 16 n) []).ebl.toNat ∧
      (recorded .reframed (BitVec.ofNat 16 n) []).ebl.toNat ≤ 8 * Config.params.recBytes ∧
      (recorded .reframed (BitVec.ofNat 16 n) []).seq = .reframed := by decide

theorem test_witness_ValidateCharacterisation :
    ∀ n ∈ [1, 128, 511, 512], (recorded .validFail (BitVec.ofNat 16 n) []).seq = .validFail ∧
      1 ≤ (recorded .validFail (BitVec.ofNat 16 n) []).ebl.toNat ∧
      (recorded .validFail (BitVec.ofNat 16 n) []).ebl.toNat ≤ 8 * Config.params.recBytes := by decide

theorem test_witness_ValidateNeverMutatesTheRecord :
    (recorded .validOk 1 [0x80]).seq = .validOk ∧
    gives (exec .validate (recorded .validOk 1 [0x80])) (fun _ => true) = true := by decide +kernel

theorem test_witness_RepeatedValidateGivesTheSameState :
    (recorded .reframed 1 [0x80]).seq = .reframed ∧
    gives (exec .validate (recorded .reframed 1 [0x80])) (fun _ => true) = true := by decide +kernel

theorem test_witness_ValidateStopsOnALengthNoRunHolds :
    (recorded .reframed 0 []).seq = .reframed ∧ (recorded .reframed 640 []).seq = .reframed ∧
    (recorded .reframed 0 []).ebl.toNat % 128 = 0 ∧ (recorded .reframed 0 []).ebl.toNat = 0 ∧
    (recorded .reframed 640 []).ebl.toNat % 128 = 0 ∧
    8 * Config.params.recBytes < (recorded .reframed 640 []).ebl.toNat := by decide

/-- The record of K9. -/
def stateK9 : State := recorded .reframed 128 (recordA.take 14 ++ [0xD9, 0x80])

theorem test_witness_SwappedCrcBytesMismatch :
    stateK9.seq = .reframed ∧ stateK9.ebl.toNat % 128 = 0 ∧ 128 ≤ stateK9.ebl.toNat ∧
    stateK9.ebl.toNat ≤ 8 * Config.params.recBytes ∧
    Memory.read stateK9.record (stateK9.ebl.toNat / 8 - 2)
      ≠ Memory.read stateK9.record (stateK9.ebl.toNat / 8 - 1) ∧
    Memory.read stateK9.record (stateK9.ebl.toNat / 8 - 2)
        ++ Memory.read stateK9.record (stateK9.ebl.toNat / 8 - 1)
      = crcA (Memory.slice stateK9.record 0 (stateK9.ebl.toNat / 8 - 2)) := by decide +kernel

/-- DecodeKindFollowsTheFormatByte and HexRenderings; and, by its first clause, DecodeWritesTheViewAlone,
DecodeRunsTheRowOfItsFormat, InPlaceParameterTouchesOnlyRec, OnlyTheReservedFormatFails and
ManufacturerLookupIsInformative: a record of each arm of the dispatch. -/
theorem test_witness_DecodeKindFollowsTheFormatByte :
    ∀ r ∈ [recordC, recordA, recordJ, recordE, recordF, recordB, recordD],
      (validated 128 r).seq = .validOk ∧ 128 ≤ (validated 128 r).ebl.toNat ∧
      (validated 128 r).ebl.toNat ≤ 8 * Config.params.recBytes := by decide

/-- The boundary formats of the dispatch: 0x00, 0x01, 0x04, 0x05, 0x06, 0xFF. -/
theorem test_witness_FormatBoundaries :
    Memory.read (array [0xB7, 0x00]) 1 = 0x00 ∧
    1 ≤ (Memory.read (array [0xB7, 0x01]) 1).toNat ∧ (Memory.read (array [0xB7, 0x04]) 1).toNat ≤ 4 ∧
    Memory.read (array [0xB7, 0x05]) 1 = 0x05 ∧
    6 ≤ (Memory.read (array [0xB7, 0x06]) 1).toNat ∧
    6 ≤ (Memory.read (array [0xB7, 0xFF]) 1).toNat := by decide

theorem test_witness_UriRendering :
    Memory.read (validated 128 recordA).record 1 = 0x01 ∧
    Memory.read (validated 128 recordJ).record 1 = 0x02 ∧
    Memory.read (validated 128 recordE).record 1 = 0x03 ∧
    Memory.read (validated 128 recordF).record 1 = 0x04 := by decide

/-- UriRowsFindTheFirstTerminator and UriRowsWriteTwoBytesInPlace. -/
theorem test_witness_UriRows :
    Instr.dffUriHttpWww ∈ ([.dffUriHttpWww, .dffUriHttpsWww, .dffUriHttp, .dffUriHttps] : List Instr) ∧
    Instr.dffUriHttps ∈ ([.dffUriHttpWww, .dffUriHttpsWww, .dffUriHttp, .dffUriHttps] : List Instr) := by
  decide

theorem test_witness_NothingRunsAgainAfterDecode :
    (validated 128 recordA).seq = .validOk ∧
    gives (exec .decode (validated 128 recordA)) (fun _ => true) = true := by decide +kernel

/-- RunEqualsTheThreeCommands: RUN refused, rejected and decoded. -/
theorem test_witness_RunEqualsTheThreeCommands :
    gives (exec .run (capture 265 [] [])) (fun t => t.cmdRes ≠ .ok) = true ∧
    gives (exec .run captureK8) (fun t => t.cmdRes = .ok && t.vres ≠ .valid) = true ∧
    gives (exec .run captureA) (fun t => t.cmdRes = .ok && t.vres = .valid) = true := by
  decide +kernel

theorem test_witness_TransactionForgetsThePast :
    (captureA.rawNbits.toNat ≤ Config.params.rawCapBits) ∧
    { validated 128 recordB with raw := captureA.raw, par := captureA.par, rawNbits := captureA.rawNbits }.raw
      = captureA.raw ∧
    gives (exec .run captureA) (fun _ => true) = true ∧
    gives (exec .run { validated 128 recordB with
      raw := captureA.raw, par := captureA.par, rawNbits := captureA.rawNbits }) (fun _ => true) = true := by
  decide +kernel

theorem test_witness_LatchesAreSampledAtReframe :
    gives (exec .validate (recorded .reframed 1 [0x80])) (fun _ => true) = true ∧
    gives (exec .decode (validated 128 recordA)) (fun _ => true) = true := by decide +kernel

/-- ReservedAddressesAndBits: the ends of the four reserved ranges and of the PAR window. -/
theorem test_witness_ReservedAddressesAndBits :
    ∀ s : State, ∀ a ∈ ([0x21, 0x3F, 0x61, 0x7F, 0x82, 0x83, 0x92, 0xBF] : List Addr),
      memRead s a = 0x00 := by
  intro s a h
  fin_cases h <;> rfl

/-- RegisterMapReads at both ends of each window. -/
theorem test_witness_RegisterMapReads :
    regAt Config.params (BitVec.ofNat 8 0) = .raw 0 ∧ regAt Config.params (BitVec.ofNat 8 32) = .raw 32 ∧
    regAt Config.params (BitVec.ofNat 8 0x40) = .par 0 ∧
    regAt Config.params (BitVec.ofNat 8 (0x40 + 32)) = .par 32 ∧
    regAt Config.params (BitVec.ofNat 8 (0xC0 + 63)) = .record 63 := by decide

theorem test_witness_ReadOnlyRegistersIgnoreWrites :
    ∀ a ∈ ([0x85, 0x91, 0xC0, 0xFF] : List Addr),
      (0x85 ≤ a.toNat ∧ a.toNat ≤ 0x91) ∨ 0xC0 ≤ a.toNat := by decide

theorem test_witness_LatchWritesReadBack :
    ∀ a ∈ ([0x00, 0x20, 0x40, 0x60, 0x80, 0x81] : List Addr),
      a.toNat ≤ 0x20 ∨ (0x40 ≤ a.toNat ∧ a.toNat ≤ 0x60) ∨ a = 0x80 ∨ a = 0x81 := by decide

/-- B8. -/
theorem test_witness_RawNbitsIsWrittenInTwoBytes : (capture 0x0108 [] []).rawNbits = 0x0108 := by decide

theorem test_witness_HostLoadsTheLatches :
    rawA.length ≤ 33 ∧ (List.replicate 33 (0xFF : Byte)).length ≤ 33 ∧ ([] : List Bool).length ≤ 33 := by
  decide

end Sys2Proof.Tests
end

section
/-! The state's statements (10_state.md): how a command ends, what a step does to ERR_SEEN, and the reset values. -/

namespace Sys2Proof.Machine

/-! The two ways a command ends (40_control.md R79, R80). -/

/-- What answers a state after `andThen` is the first part answering one and the second going on from it. -/
theorem andThen_eq_next_iff {r : Host.Outcome State Fault Refusal}
    {f : State → Host.Outcome State Fault Refusal} {t : State} :
    andThen r f = .next t ↔ ∃ u, r = .next u ∧ f u = .next t := by
  cases r <;> simp [andThen]

/-- A command issued in `s` ended in `t`: with a command error and nothing else (40_control.md R79), or with OK and
ERR_SEEN as it was (40_control.md R80). -/
def CommandEnds (s t : State) : Prop :=
  (∃ e, t = raiseCmdError e s) ∨ (t.cmdRes = .ok ∧ t.errSeen = s.errSeen)

theorem raiseCmdError_ends (e : CmdError) (s : State) : CommandEnds s (raiseCmdError e s) :=
  .inl ⟨e, rfl⟩

/-- A command that does not end with OK sets ERR_SEEN. -/
theorem CommandEnds.errSeen_of_cmdRes_ne_ok {s t : State} (h : CommandEnds s t) (hr : t.cmdRes ≠ .ok) :
    t.errSeen = true := by
  rcases h with ⟨e, rfl⟩ | ⟨hok, -⟩
  · rfl
  · exact absurd hok hr

/-- No command clears ERR_SEEN. -/
theorem CommandEnds.errSeen_of_errSeen {s t : State} (h : CommandEnds s t) (hs : s.errSeen = true) :
    t.errSeen = true := by
  rcases h with ⟨e, rfl⟩ | ⟨-, hkeep⟩
  · rfl
  · exact hkeep.trans hs

theorem reframeWith_ends {P : Params} {s t : State} (h : reframeWith P s = .next t) : CommandEnds s t := by
  rcases reframeWith_cases P s with ⟨-, hr⟩ | ⟨-, hr⟩ <;> cases hr.symm.trans h
  · exact raiseCmdError_ends _ s
  · exact .inr ⟨rfl, rfl⟩

/-- A legal VALIDATE that answers a state ends with OK and leaves ERR_SEEN. -/
theorem validateWith_ok {P : Params} {s t : State} (hl : validateLegal s.seq = true)
    (h : validateWith P s = .next t) : t.cmdRes = .ok ∧ t.errSeen = s.errSeen := by
  rw [(validateWith_next hl h).1]
  exact ⟨rfl, rfl⟩

/-- A legal VALIDATE that finds the record Valid leaves VALID_OK. -/
theorem validateWith_seq_of_valid {P : Params} {s t : State} (hl : validateLegal s.seq = true)
    (h : validateWith P s = .next t) (hvalid : t.vres = .valid) : t.seq = .validOk := by
  rcases (validateWith_next hl h).2 with ⟨-, hq, -⟩ | ⟨hne, -⟩ | ⟨hne, -⟩
  · exact hq
  all_goals simp [hvalid] at hne

theorem validateWith_ends {P : Params} {s t : State} (h : validateWith P s = .next t) :
    CommandEnds s t := by
  rcases validateWith_cases P s with ⟨-, hv⟩ | ⟨hl, -⟩ | ⟨hl, -⟩ | ⟨hl, -⟩
  · cases hv.symm.trans h
    exact raiseCmdError_ends _ s
  all_goals exact .inr (validateWith_ok hl h)

/-- DECODE of a validated record ends with OK and leaves ERR_SEEN. -/
theorem decodeEffect_ok (P : Params) (s : State) :
    (decodeEffect P s).cmdRes = .ok ∧ (decodeEffect P s).errSeen = s.errSeen := by
  rw [decodeEffect_eq]
  exact ⟨rfl, rfl⟩

theorem decodeWith_ends {P : Params} {s t : State} (h : decodeWith P s = .next t) : CommandEnds s t := by
  rcases decodeWith_cases P s with ⟨-, hd⟩ | ⟨-, hd⟩ <;> cases hd.symm.trans h
  · exact .inr (decodeEffect_ok P s)
  · exact raiseCmdError_ends _ s

/-- RUN ends with REFRAME's length error or with OK: after a REFRAME the VALIDATE is legal, and the DECODE it goes on
to finds a validated record (40_control.md R82). -/
theorem runWith_ends {P : Params} {s t : State} (h : runWith P s = .next t) : CommandEnds s t := by
  rcases runWith_cases P s with ⟨-, hr⟩ | ⟨-, hr⟩ <;> rw [hr] at h
  · cases h
    exact raiseCmdError_ends _ s
  · obtain ⟨u, hv, hu⟩ := andThen_eq_next_iff.mp h
    have hl : validateLegal (reframeEffect s).seq = true := rfl
    obtain ⟨hres, herr⟩ := validateWith_ok hl hv
    split_ifs at hu with hvalid
    · have hseq : u.seq = .validOk := validateWith_seq_of_valid hl hv hvalid
      rcases decodeWith_cases P u with ⟨-, hd⟩ | ⟨hne, -⟩
      · cases hd.symm.trans hu
        obtain ⟨hres', herr'⟩ := decodeEffect_ok P u
        exact .inr ⟨hres', herr'.trans herr⟩
      · exact absurd hseq hne
    · cases hu
      exact .inr ⟨hres, herr⟩

/-- Every row of format CMD ends in one of the two ways. The rows of format DFF are no commands (log 9). -/
theorem execWith_ends {P : Params} {i : Instr} {s t : State} (hi : i.format = .cmd)
    (h : execWith P i s = .next t) : CommandEnds s t := by
  cases i with
  | reframe => exact reframeWith_ends h
  | validate => exact validateWith_ends h
  | decode => exact decodeWith_ends h
  | run => exact runWith_ends h
  | illegal b =>
    cases h
    exact raiseCmdError_ends _ s
  | dffReserved | dffUriHttpWww | dffUriHttpsWww | dffUriHttp | dffUriHttps | dffEpc | dffUnknown _ =>
    cases hi

/-- Every byte written to CMD issues a command that ends in one of the two ways. -/
theorem issue_ends {b : Byte} {s t : State} (h : issue b s = .next t) : CommandEnds s t := by
  rw [issue, exec_eq_execWith] at h
  exact execWith_ends (decodeCmd_format b) h

/-! ERR_SEEN along a step (10_state.md R26). -/

/-- A write to any register leaves ERR_SEEN set. -/
theorem memWriteWith_errSeen {P : Params} {s t : State} {a : Addr} {v : Byte} (hs : s.errSeen = true)
    (h : memWriteWith P (execWith P) s a v = .next t) : t.errSeen = true := by
  rcases memWriteWith_cases P (execWith P) s a v with
    ⟨g, -, hw⟩ | ⟨g, -, hw⟩ | ⟨-, hw⟩ | ⟨-, hw⟩ | ⟨-, hw⟩ | hw <;> rw [hw] at h
  case inr.inr.inr.inr.inl =>
    exact (execWith_ends (decodeCmd_format v) h).errSeen_of_errSeen hs
  all_goals
    cases h
    exact hs

/-- An event other than a reset leaves ERR_SEEN set. -/
theorem serveEvent_errSeen {P : Params} {s t : State} {e : BusEvent} (hs : s.errSeen = true)
    (he : e ≠ .reset) (h : serveEvent P (execWith P) e s = .next t) : t.errSeen = true := by
  rcases serveEvent_cases P (execWith P) e s with
    ⟨r, hr⟩ | ⟨hreset, -⟩ | ⟨a, -, hread⟩ | ⟨a, v, -, hwrite⟩
  · cases hr.symm.trans h
  · exact absurd hreset he
  · cases hread.symm.trans h
    exact hs
  · exact memWriteWith_errSeen hs (hwrite.symm.trans h)

/-- A step whose event is no reset leaves ERR_SEEN set. -/
theorem stepWith_errSeen {P : Params} {s t : State} (hs : s.errSeen = true)
    (hhead : s.pending.head? ≠ some .reset) (h : stepWith P s = .next t) : t.errSeen = true := by
  cases hp : s.pending with
  | nil =>
    cases (serveNext_idle _ _ hp).symm.trans h
    exact hs
  | cons e rest =>
    have he : e ≠ .reset := by simpa [hp] using hhead
    exact serveEvent_errSeen (s := { s with pending := rest }) hs he
      ((serveNext_event _ _ hp).symm.trans h)

/-- A step whose event is a reset answers the state of the reset event (70_reset_and_hazards.md R137). -/
theorem step_reset {s : State} {rest : List BusEvent} (h : s.pending = .reset :: rest) :
    step s = .next (resetEvent Config.params { s with pending := rest }) :=
  step_event h

/-! The registers STATUS, CMDRES and VRES read (20_memory.md R44). -/

@[simp] theorem memRead_status (s : State) : memRead s 0x85#8 = statusByte s :=
  congrArg (readReg s) regAt_status

@[simp] theorem memRead_cmdRes (s : State) : memRead s 0x86#8 = s.cmdRes.code.zeroExtend 8 :=
  congrArg (readReg s) regAt_cmdRes

@[simp] theorem memRead_vres (s : State) : memRead s 0x87#8 = s.vres.code.zeroExtend 8 :=
  congrArg (readReg s) regAt_vres

/-! The statements. -/

/-- Settles O14: every command ends with an error that sets ERR_SEEN or with OK that keeps it, so no step clears it but
the reset event, which puts the reset value there. -/
theorem errorBitIsSticky : Obligations.ErrorBitIsSticky := by
  refine ⟨fun b s t h => (issue_ends h).errSeen_of_cmdRes_ne_ok, fun s t hs hhead h => ?_,
    fun s t hhead h => ?_⟩
  · rw [step, exec_eq_execWith] at h
    exact stepWith_errSeen hs hhead h
  · obtain ⟨rest, hp⟩ := List.head?_eq_some_iff.mp hhead
    cases (step_reset hp).symm.trans h
    rfl

/-- Settles O8: the fields are those of `State.atReset`, and the three registers read their codes, which are 0. -/
theorem resetValues : Obligations.ResetValues := by
  refine ⟨⟨[], [], [], rfl⟩, ?_⟩
  rintro raw par record s rfl
  refine ⟨rfl, rfl, rfl, rfl, rfl, rfl, rfl, rfl, rfl, rfl, rfl, rfl, rfl, ?_, ?_, ?_⟩
  · simp [State.atReset, statusByte, SeqState.code]
  · exact (memRead_cmdRes _).trans rfl
  · exact (memRead_vres _).trans rfl

end Sys2Proof.Machine
end

section
/-! The host bus at the addresses that store nothing (20_memory.md R45, R46), and the reserved bits of the registers that
do (20_memory.md R45). -/

namespace Sys2Proof.Machine

/-! Where a write does nothing (20_memory.md R48, its last line). -/

/-- The registers a write leaves: every row of the map but the input latches and CMD. -/
def HostReg.ignoresWrites : HostReg → Bool
  | .raw _ | .par _ | .rawNbitsLo | .rawNbitsHi | .cmd => false
  | .status | .cmdRes | .vres | .eblLo | .eblHi | .crcLo | .crcHi | .dvKind | .dvFmt | .dvMfr
  | .dvFlags | .dvLen | .dvTerm | .record _ | .reserved => true

theorem writeReg_of_ignoresWrites {r : HostReg} (h : r.ignoresWrites = true) (M : Meanings) (v : Byte)
    (s : State) : writeReg M r v s = .next s := by
  cases r with
  | raw _ | par _ | rawNbitsLo | rawNbitsHi | cmd => cases h
  | status | cmdRes | vres | eblLo | eblHi | crcLo | crcHi | dvKind | dvFmt | dvMfr | dvFlags | dvLen
  | dvTerm | record _ | reserved => rfl

theorem memWrite_of_ignoresWrites {a : Addr} (h : (regAt Config.params a).ignoresWrites = true) (s : State)
    (v : Byte) : memWrite s a v = .next s :=
  writeReg_of_ignoresWrites h exec v s

/-- Every single-byte row after CMD ignores writes, mapped or not. -/
theorem controlReg_ignoresWrites : ∀ a : Addr, 0x85 ≤ a.toNat → (controlReg a).ignoresWrites = true := by
  decide +kernel

/-- Every address after CMD ignores writes: the result registers, the reserved range behind them, and REC. -/
theorem regAt_ignoresWrites {a : Addr} (h : 0x85 ≤ a.toNat) :
    (regAt Config.params a).ignoresWrites = true := by
  by_cases hrec : 0xC0 ≤ a.toNat
  · rw [regAt_record hrec]
    rfl
  · rw [regAt_control params_ok (by omega) (by omega)]
    exact controlReg_ignoresWrites a h

/-! The reserved addresses (20_memory.md R45). -/

/-- The addresses among the single-byte rows that have no row. -/
theorem controlReg_unmapped : ∀ a : Addr,
    a = 0x82 ∨ a = 0x83 ∨ (0x92 ≤ a.toNat ∧ a.toNat ≤ 0xBF) → controlReg a = .reserved := by
  decide +kernel

/-- The four reserved ranges of the reference map: the ends of the RAW and PAR windows, and the single-byte addresses
with no row. -/
theorem regAt_reservedRanges {a : Addr}
    (h : (0x21 ≤ a.toNat ∧ a.toNat ≤ 0x3F) ∨ (0x61 ≤ a.toNat ∧ a.toNat ≤ 0x7F) ∨
      a = 0x82 ∨ a = 0x83 ∨ (0x92 ≤ a.toNat ∧ a.toNat ≤ 0xBF)) :
    regAt Config.params a = .reserved := by
  have hraw : Config.params.rawBytes = 33 := by decide
  have hpar : Config.params.parSlots = 33 := by decide
  rcases h with h | h | h
  · exact regAt_reserved params_ok (.inl (by omega))
  · exact regAt_reserved params_ok (.inr (.inl (by omega)))
  · have hrange : 0x80 ≤ a.toNat ∧ a.toNat < 0xC0 := by
      rcases h with rfl | rfl | h
      · decide
      · decide
      · omega
    obtain ⟨hlo, hhi⟩ := hrange
    exact (regAt_control params_ok hlo hhi).trans (controlReg_unmapped a h)

theorem memRead_of_reserved {a : Addr} (h : regAt Config.params a = .reserved) (s : State) :
    memRead s a = 0x00 :=
  congrArg (readReg s) h

theorem memWrite_of_reserved {a : Addr} (h : regAt Config.params a = .reserved) (s : State) (v : Byte) :
    memWrite s a v = .next s :=
  memWrite_of_ignoresWrites (by rw [h]; rfl) s v

/-! The PAR window (10_state.md R18). -/

theorem memRead_par {a : Addr} (h1 : 0x40 ≤ a.toNat) (h2 : a.toNat ≤ 0x60) (s : State) :
    memRead s a = (BitVec.ofBool (parityBit s (a.toNat - 0x40))).zeroExtend 8 :=
  congrArg (readReg s) (regAt_par h1 h2)

theorem memWrite_par {a : Addr} (h1 : 0x40 ≤ a.toNat) (h2 : a.toNat ≤ 0x60) (s : State) (v : Byte) :
    memWrite s a v = .next { s with par := Memory.write s.par (a.toNat - 0x40) (v &&& 0x01) } := by
  rw [memWrite_eq, regAt_par h1 h2]
  rfl

/-! The packed registers: a field of `w` bits and zeros above it (20_memory.md R47). -/

@[simp] theorem memRead_dvKind (s : State) : memRead s 0x8C#8 = s.dvKind.code.zeroExtend 8 :=
  congrArg (readReg s) regAt_dvKind

@[simp] theorem memRead_dvFlags (s : State) : memRead s 0x8F#8 = dvFlagsByte s :=
  congrArg (readReg s) regAt_dvFlags

/-- A field placed at bit 0 of a register reads below `2 ^ w`: the bits above it are 0. -/
theorem toNat_zeroExtend_lt {w : Nat} (field : BitVec w) (n : Nat) :
    (field.zeroExtend n).toNat < 2 ^ w := by
  rw [BitVec.toNat_setWidth]
  exact (Nat.mod_le _ _).trans_lt field.isLt

/-- STATUS is SEQ's code, and ERR_SEEN at bit 3 (10_state.md R27). -/
theorem toNat_statusByte (s : State) :
    (statusByte s).toNat = s.seq.code.toNat + if s.errSeen = true then 8 else 0 := by
  unfold statusByte
  cases s.errSeen <;> cases s.seq <;> rfl

theorem toNat_statusByte_lt (s : State) : (statusByte s).toNat < 16 := by
  have hseq : s.seq.code.toNat < 8 := s.seq.code.isLt
  rw [toNat_statusByte]
  split <;> omega

/-! The statements. -/

/-- Settles O52: 0x85 to 0x91 and REC all lie after CMD, where every register ignores writes. -/
theorem readOnlyRegistersIgnoreWrites : Obligations.ReadOnlyRegistersIgnoreWrites := by
  intro s a v h
  exact memWrite_of_ignoresWrites (regAt_ignoresWrites (by omega)) s v

/-- Settles O51: the reserved ranges are `reserved` in the map; PAR stores bit 0 of what is written and reads it
zero-extended; and each packed register is a field with zeros above it. -/
theorem reservedAddressesAndBits : Obligations.ReservedAddressesAndBits := by
  refine ⟨fun s a v h => ?_, fun s a v h1 h2 => ⟨?_, ?_⟩, fun s => ⟨?_, ?_, ?_, ?_, ?_⟩⟩
  · have hreg := regAt_reservedRanges h
    exact ⟨memRead_of_reserved hreg s, memWrite_of_reserved hreg s v⟩
  · rw [memRead_par h1 h2]
    exact toNat_zeroExtend_lt _ 8
  · rw [memWrite_par h1 h2, memWrite_par h1 h2, BitVec.and_assoc, BitVec.and_self]
  · exact (memRead_status s).symm ▸ toNat_statusByte_lt s
  · exact (memRead_cmdRes s).symm ▸ toNat_zeroExtend_lt _ 8
  · exact (memRead_vres s).symm ▸ toNat_zeroExtend_lt _ 8
  · exact (memRead_dvKind s).symm ▸ toNat_zeroExtend_lt _ 8
  · exact (memRead_dvFlags s).symm ▸ toNat_zeroExtend_lt _ 8

end Sys2Proof.Machine
end

section
/-! The control's statement (40_control.md): where VALIDATE and DECODE are legal, and that RUN completes in every state. -/

namespace Sys2Proof.Machine

/-! The refusals of the sequencing table (40_control.md R78). -/

theorem validateWith_of_illegal {s : State} (h : validateLegal s.seq = false) (P : Params) :
    validateWith P s = .next (raiseCmdError .seqErr s) :=
  if_neg (by simp [h])

theorem decodeWith_of_validOk {s : State} (h : s.seq = .validOk) (P : Params) :
    decodeWith P s = .next (decodeEffect P s) :=
  if_pos ((decodeLegal_iff _).mpr h)

theorem decodeWith_of_ne_validOk {s : State} (h : s.seq ≠ .validOk) (P : Params) :
    decodeWith P s = .next (raiseCmdError .seqErr s) :=
  if_neg (h ∘ (decodeLegal_iff _).mp)

/-! RUN completes (40_control.md R82). -/

/-- A complete record REFRAME built lies in REC: its length is at least 1 and at most REC's, so a complete one has at
least 16 bytes (41_reframer.md R91; 00_scope.md R8). -/
theorem crcInRange_reframeEffect {P : Params} {s : State} (hP : P.Ok) (hcap : bitCount s ≤ P.rawCapBits)
    (hcomplete : isComplete (reframeEffect s) = true) : crcInRange P (reframeEffect s) = true := by
  obtain ⟨hlen, hle⟩ := toNat_reframedLength s hP hcap
  have hebl : (reframeEffect s).ebl.toNat = 1 + 9 * (bitCount s / 8) + bitCount s % 8 := hlen
  rw [isComplete_iff, hebl] at hcomplete
  rw [crcInRange_iff, hebl]
  omega

/-- VALIDATE answers a state after every REFRAME within the capacity: it is legal there and cannot fault. -/
theorem validateWith_reframeEffect {P : Params} {s : State} (hP : P.Ok) (hcap : bitCount s ≤ P.rawCapBits) :
    ∃ t, validateWith P (reframeEffect s) = .next t := by
  rcases validateWith_cases P (reframeEffect s) with
    ⟨-, h⟩ | ⟨-, -, h⟩ | ⟨-, -, -, h⟩ | ⟨-, hcomplete, hrange, -⟩
  · exact ⟨_, h⟩
  · exact ⟨_, h⟩
  · exact ⟨_, h⟩
  · simp [crcInRange_reframeEffect hP hcap hcomplete] at hrange

/-- RUN of a capture within the capacity ends with OK, whether VALIDATE ends it or DECODE does. -/
theorem runWith_ok {P : Params} {s : State} (hP : P.Ok) (hcap : bitCount s ≤ P.rawCapBits) :
    ∃ t, runWith P s = .next t ∧ t.cmdRes = .ok := by
  obtain ⟨u, hu⟩ := validateWith_reframeEffect hP hcap
  have hl : validateLegal (reframeEffect s).seq = true := rfl
  have hrun : runWith P s = if u.vres = .valid then decodeWith P u else .next u := by
    rcases runWith_cases P s with ⟨hlong, -⟩ | ⟨-, hr⟩
    · omega
    · rw [hr, hu]
      rfl
  by_cases hvalid : u.vres = .valid
  · have hseq : u.seq = .validOk := validateWith_seq_of_valid hl hu hvalid
    rw [if_pos hvalid, decodeWith_of_validOk hseq] at hrun
    exact ⟨_, hrun, (decodeEffect_ok P u).1⟩
  · rw [if_neg hvalid] at hrun
    exact ⟨u, hrun, (validateWith_ok hl hu).1⟩

/-! The two commands that are legal in every state (40_control.md R78). -/

theorem reframeWith_ne_seqErr (P : Params) (s : State) :
    ∃ t, reframeWith P s = .next t ∧ t.cmdRes ≠ .seqErr := by
  rcases reframeWith_cases P s with ⟨-, h⟩ | ⟨-, h⟩
  · exact ⟨_, h, by simp [CmdError.result]⟩
  · exact ⟨_, h, by simp [reframeEffect]⟩

theorem runWith_ne_seqErr {P : Params} (hP : P.Ok) (s : State) :
    ∃ t, runWith P s = .next t ∧ t.cmdRes ≠ .seqErr := by
  rcases runWith_cases P s with ⟨-, h⟩ | ⟨hcap, -⟩
  · exact ⟨_, h, by simp [CmdError.result]⟩
  · obtain ⟨t, ht, hok⟩ := runWith_ok hP hcap
    exact ⟨t, ht, by simp [hok]⟩

/-! The statement. -/

/-- Settles O12: the two refusals are those of VALIDATE and DECODE at a state that is not legal, the two legal clauses are
how a legal one ends, and RUN completes since a record REFRAME built is never one VALIDATE faults on. -/
theorem sequencingTable : Obligations.SequencingTable := by
  refine ⟨fun s h => ?_, fun s h => decodeWith_of_ne_validOk h _, fun s t hq h => ?_, fun s t hq h => ?_,
    fun s => ?_⟩
  · exact validateWith_of_illegal (by rcases h with h | h <;> rw [h] <;> rfl) _
  · exact (validateWith_ok ((validateLegal_iff _).mpr hq) h).1
  · cases (decodeWith_of_validOk hq _).symm.trans h
    exact (decodeEffect_ok _ s).1
  · obtain ⟨t, ht, htres⟩ := reframeWith_ne_seqErr Config.params s
    obtain ⟨u, hu, hures⟩ := runWith_ne_seqErr params_ok s
    exact ⟨t, u, ht, htres, hu, hures⟩

end Sys2Proof.Machine
end

section
/-! REFRAME's statements (41_reframer.md): every bit of the frame by its place in the capture, the record and the length a
REFRAME within the capacity leaves, and what the record does not depend on. -/

namespace Sys2Proof.Machine

/-! The frame's bits (30_encoding.md R62): a start bit, blocks of nine for the complete groups, the partial group. -/

theorem length_flatMap_fullGroup (s : State) (G : Nat) :
    ((List.range G).flatMap (fullGroup s)).length = 9 * G := by
  simp [List.length_flatMap, mul_comm]

/-- Bit `j` of block `g`. -/
theorem getElem?_flatMap_fullGroup (s : State) {G g j : Nat} (hg : g < G) (hj : j < 9) :
    ((List.range G).flatMap (fullGroup s))[9 * g + j]? = (fullGroup s g)[j]? := by
  induction G with
  | zero => omega
  | succ G ih =>
    have hlen := length_flatMap_fullGroup s G
    rw [List.range_succ, List.flatMap_append, List.flatMap_singleton]
    rcases Nat.lt_succ_iff_lt_or_eq.mp hg with hlt | rfl
    · rw [List.getElem?_append_left (by omega), ih hlt]
    · rw [List.getElem?_append_right (by omega), hlen, Nat.add_sub_cancel_left]

theorem getElem?_wireBits_fullGroup (s : State) {g j : Nat} (hg : g < groupCount s) (hj : j < 9) :
    (wireBits s)[1 + 9 * g + j]? = (fullGroup s g)[j]? := by
  have hlen := length_flatMap_fullGroup s (groupCount s)
  rw [wireBits, show 1 + 9 * g + j = (9 * g + j) + 1 by omega, List.getElem?_cons_succ,
    List.getElem?_append_left (by omega), getElem?_flatMap_fullGroup s hg hj]

theorem getElem?_wireBits_partialGroup (s : State) (k : Nat) :
    (wireBits s)[1 + 9 * groupCount s + k]? = (groupBits s (groupCount s) (partialBits s))[k]? := by
  have hlen := length_flatMap_fullGroup s (groupCount s)
  rw [wireBits, show 1 + 9 * groupCount s + k = (9 * groupCount s + k) + 1 by omega,
    List.getElem?_cons_succ, List.getElem?_append_right (by omega), hlen, Nat.add_sub_cancel_left]

theorem getElem?_groupBits (s : State) (g : Nat) {n k : Nat} (hk : k < n) :
    (groupBits s g n)[k]? = some (dataBit s g k) := by
  simp [groupBits, hk]

/-! The bits of the record REFRAME builds (41_reframer.md R92). -/

theorem getBit_eq_extractData (m : Memory) {o g k : Nat} (h : o = 1 + 9 * g + k) :
    getBit m o = extractData m g k :=
  congrArg (getBit m) h

theorem getBit_eq_extractParity (m : Memory) {o g : Nat} (h : o = 9 * g + 9) :
    getBit m o = extractParity m g :=
  congrArg (getBit m) h

theorem getBit_reframedRecord_zero (s : State) : getBit (reframedRecord s) 0 = true := by
  rw [getBit_reframedRecord]
  rfl

theorem extractData_reframedRecord (s : State) {g k : Nat} (hg : g < groupCount s) (hk : k < 8) :
    extractData (reframedRecord s) g k = dataBit s g k := by
  rw [extractData, getBit_reframedRecord, List.getD_eq_getElem?_getD,
    getElem?_wireBits_fullGroup s hg (by omega), fullGroup, List.getElem?_append_left (by simpa using hk),
    getElem?_groupBits s g hk, Option.getD_some]

theorem extractParity_reframedRecord (s : State) {g : Nat} (hg : g < groupCount s) :
    extractParity (reframedRecord s) g = parityBit s g := by
  rw [extractParity, getBit_reframedRecord, List.getD_eq_getElem?_getD,
    show 9 * g + 9 = 1 + 9 * g + 8 by omega, getElem?_wireBits_fullGroup s hg (by omega), fullGroup,
    List.getElem?_append_right (by simp), length_groupBits]
  rfl

theorem extractData_reframedRecord_partialGroup (s : State) {k : Nat} (hk : k < partialBits s) :
    extractData (reframedRecord s) (groupCount s) k = dataBit s (groupCount s) k := by
  rw [extractData, getBit_reframedRecord, List.getD_eq_getElem?_getD, getElem?_wireBits_partialGroup,
    getElem?_groupBits s _ hk, Option.getD_some]

theorem getBit_reframedRecord_past (s : State) {o : Nat} (h : reframedLength s ≤ o) :
    getBit (reframedRecord s) o = false := by
  rw [getBit_reframedRecord, List.getD_eq_default _ _ h]

/-- A byte that lies past the last bit written is clear (41_reframer.md R95). -/
theorem read_reframedRecord_past (s : State) {i : Nat} (h : (reframedLength s - 1) / 8 < i) :
    Memory.read (reframedRecord s) i = 0x00 := by
  rw [← Memory.read_zeroed i]
  refine read_eq_of_getBit fun o ho => ?_
  rw [getBit_zeroed, getBit_reframedRecord_past s (by omega)]

/-! What the record depends on (41_reframer.md R95). -/

/-- The captures of two states agree in all REFRAME reads: N, the N data bits and the G parity bits. -/
structure SameCapture (s s' : State) : Prop where
  rawNbits : s'.rawNbits = s.rawNbits
  data : ∀ g < groupCount s, ∀ k < 8, dataBit s' g k = dataBit s g k
  parity : ∀ g < groupCount s, parityBit s' g = parityBit s g
  partialData : ∀ k < partialBits s, dataBit s' (groupCount s) k = dataBit s (groupCount s) k

theorem groupBits_congr {s s' : State} {g n : Nat} (h : ∀ k < n, dataBit s' g k = dataBit s g k) :
    groupBits s' g n = groupBits s g n :=
  List.map_congr_left fun k hk => h k (List.mem_range.mp hk)

theorem SameCapture.fullGroup_eq {s s' : State} (h : SameCapture s s') {g : Nat} (hg : g < groupCount s) :
    fullGroup s' g = fullGroup s g := by
  rw [fullGroup, fullGroup, groupBits_congr (h.data g hg), h.parity g hg]

theorem SameCapture.wireBits_eq {s s' : State} (h : SameCapture s s') : wireBits s' = wireBits s := by
  have hN : bitCount s' = bitCount s := congrArg BitVec.toNat h.rawNbits
  have hG : groupCount s' = groupCount s := congrArg (· / 8) hN
  have hr : partialBits s' = partialBits s := congrArg (· % 8) hN
  rw [wireBits, wireBits, hG, hr, groupBits_congr h.partialData,
    List.flatMap_congr fun g hg => h.fullGroup_eq (List.mem_range.mp hg)]

theorem SameCapture.reframedRecord_eq {s s' : State} (h : SameCapture s s') :
    reframedRecord s' = reframedRecord s := by
  rw [reframedRecord, reframedRecord, h.wireBits_eq]

theorem SameCapture.reframedLength_eq {s s' : State} (h : SameCapture s s') :
    reframedLength s' = reframedLength s := by
  rw [reframedLength, reframedLength, h.wireBits_eq]

/-- A parity latch at G or above is not read (41_reframer.md R93). -/
theorem sameCapture_write_par (s : State) {g : Nat} (latch : Byte) (h : groupCount s ≤ g) :
    SameCapture s { s with par := Memory.write s.par g latch } where
  rawNbits := rfl
  data _ _ _ _ := rfl
  parity g' hg' := congrArg (BitVec.getLsbD · 0) (Memory.read_write_other _ _ (by omega))
  partialData _ _ := rfl

/-- The bits of RAW[G] above `r - 1` are not read (41_reframer.md R93). -/
theorem sameCapture_write_raw (s : State) {b : Byte}
    (h : ∀ k < partialBits s, b.getLsbD k = dataBit s (groupCount s) k) :
    SameCapture s { s with raw := Memory.write s.raw (groupCount s) b } where
  rawNbits := rfl
  data g hg k _ := congrArg (BitVec.getLsbD · k) (Memory.read_write_other _ _ (by omega))
  parity _ _ := rfl
  partialData k hk := (congrArg (BitVec.getLsbD · k) (Memory.read_write_same _ _ _)).trans (h k hk)

/-! The state REFRAME leaves (41_reframer.md R88 to R91). -/

@[simp] theorem reframeEffect_record (s : State) : (reframeEffect s).record = reframedRecord s := rfl

@[simp] theorem reframeEffect_ebl (s : State) :
    (reframeEffect s).ebl = BitVec.ofNat 16 (reframedLength s) := rfl

theorem reframeWith_of_le {P : Params} {s : State} (h : bitCount s ≤ P.rawCapBits) :
    reframeWith P s = .next (reframeEffect s) :=
  if_neg (not_lt.mpr h)

theorem exec_reframe_of_le {s : State} (h : bitCount s ≤ Config.params.rawCapBits) :
    exec .reframe s = .next (reframeEffect s) :=
  reframeWith_of_le h

theorem reframeWith_of_lt {P : Params} {s : State} (h : P.rawCapBits < bitCount s) :
    reframeWith P s = .next (raiseCmdError .lenErr s) :=
  if_pos h

theorem runWith_of_lt {P : Params} {s : State} (h : P.rawCapBits < bitCount s) :
    runWith P s = .next (raiseCmdError .lenErr s) := by
  rcases runWith_cases P s with ⟨-, hr⟩ | ⟨hle, -⟩
  · exact hr
  · omega

theorem toNat_reframeEffect_ebl {P : Params} {s : State} (hP : P.Ok) (h : bitCount s ≤ P.rawCapBits) :
    (reframeEffect s).ebl.toNat = reframedLength s := by
  rw [reframeEffect_ebl, (toNat_reframedLength s hP h).1, reframedLength, length_wireBits]

theorem reframedLength_eq (s : State) :
    reframedLength s = 1 + 9 * (s.rawNbits.toNat / 8) + s.rawNbits.toNat % 8 :=
  length_wireBits s

theorem reframedLength_le_maxLength {P : Params} {s : State} (h : bitCount s ≤ P.rawCapBits) :
    reframedLength s ≤ P.maxLength := by
  have hlen := length_wireBits s
  rw [reframedLength, Params.maxLength]
  omega

/-! The statements. -/

/-- Settles O18: EBL is the length of the frame, `1 + 9 * (N / 8) + N % 8`; the bounds and the lengths hit or missed
follow from it. -/
theorem reframeEffectiveBitLength : Obligations.ReframeEffectiveBitLength := by
  refine ⟨fun P s hP hcap => ?_, fun s hcap => ?_⟩
  · have hlen := reframedLength_eq s
    refine ⟨_, reframeWith_of_le hcap, ?_⟩
    rw [toNat_reframeEffect_ebl hP hcap]
    exact ⟨hlen, reframedLength_le_maxLength hcap, hP.1, by omega, by omega⟩
  · refine ⟨_, exec_reframe_of_le hcap, ?_⟩
    rw [toNat_reframeEffect_ebl params_ok hcap, reframedLength_eq]
    omega

/-- Settles O19: an offset is the start bit, bit `(o - 1) % 9` of the block `(o - 1) / 9`, a bit of the partial group, or
past the end. -/
theorem reframeClosedForm : Obligations.ReframeClosedForm := by
  intro s hcap
  refine ⟨_, exec_reframe_of_le hcap, ?_⟩
  rw [toNat_reframeEffect_ebl params_ok hcap, reframeEffect_record]
  have hlen := reframedLength_eq s
  have hG : groupCount s = s.rawNbits.toNat / 8 := rfl
  have hr : partialBits s = s.rawNbits.toNat % 8 := rfl
  refine ⟨hlen, fun o _ => ?_⟩
  split_ifs with hzero hcomplete hdata hend
  · rw [hzero, getBit_reframedRecord_zero]
  · rw [getBit_eq_extractData _ (g := (o - 1) / 9) (k := (o - 1) % 9) (by omega)]
    exact extractData_reframedRecord s (by omega) hdata
  · rw [getBit_eq_extractParity _ (g := (o - 1) / 9) (by omega)]
    exact extractParity_reframedRecord s (by omega)
  · rw [getBit_eq_extractData _ (g := groupCount s) (k := o - 1 - 9 * groupCount s) (by omega)]
    exact extractData_reframedRecord_partialGroup s (by omega)
  · exact getBit_reframedRecord_past s (by omega)

/-- Settles O20: each extraction is the frame's bit at its place, and the latches and bits not read are no part of the
capture. -/
theorem reframeRoundTrip : Obligations.ReframeRoundTrip := by
  intro s hcap
  exact ⟨_, exec_reframe_of_le hcap,
    fun g hg => ⟨fun k hk => extractData_reframedRecord s hg hk, extractParity_reframedRecord s hg⟩,
    fun k hk => extractData_reframedRecord_partialGroup s hk,
    fun g latch hg => ⟨_, exec_reframe_of_le hcap, (sameCapture_write_par s latch hg).reframedRecord_eq⟩,
    fun b hb => ⟨_, exec_reframe_of_le hcap, (sameCapture_write_raw s hb).reframedRecord_eq⟩⟩

/-- Settles O21: record bit 0, which is bit 7 of REC[0] by definition. -/
theorem reframeSetsTheStartBit : Obligations.ReframeSetsTheStartBit := fun s hcap =>
  ⟨_, exec_reframe_of_le hcap, getBit_reframedRecord_zero s, getBit_reframedRecord_zero s⟩

/-- Settles O22: nothing is written from EBL on into the zeroed record, and the frame is that of the capture. -/
theorem reframeDependsOnTheCaptureAlone : Obligations.ReframeDependsOnTheCaptureAlone := by
  refine ⟨fun s hcap => ?_, fun s s' hcap hN hgroups hpartial => ?_⟩
  · refine ⟨_, exec_reframe_of_le hcap, ?_⟩
    rw [toNat_reframeEffect_ebl params_ok hcap]
    exact ⟨fun o => getBit_reframedRecord_past s, fun i => read_reframedRecord_past s⟩
  · have hsame : SameCapture s s' :=
      { rawNbits := hN
        data := fun g hg k _ => congrArg (BitVec.getLsbD · k) (hgroups g hg).1
        parity := fun g hg => (hgroups g hg).2
        partialData := hpartial }
    have hcap' : bitCount s' ≤ Config.params.rawCapBits := (congrArg BitVec.toNat hN).trans_le hcap
    exact ⟨_, _, exec_reframe_of_le hcap, exec_reframe_of_le hcap', hsame.reframedRecord_eq,
      congrArg (BitVec.ofNat 16) hsame.reframedLength_eq⟩

/-- Settles O16: REFRAME raises LEN_ERR before it writes, and RUN ends where its REFRAME failed. -/
theorem overlongCaptureIsRefused : Obligations.OverlongCaptureIsRefused := fun _ h =>
  ⟨reframeWith_of_lt h, runWith_of_lt h⟩

/-- Settles O17: the fields are those of `reframeEffect`. -/
theorem reframeClearsTheOldResults : Obligations.ReframeClearsTheOldResults := fun _ hcap =>
  ⟨_, exec_reframe_of_le hcap, rfl⟩

end Sys2Proof.Machine
end

section
/-! VALIDATE's statements (42_validator.md): the incomplete record, and what VALIDATE leaves unchanged. -/

namespace Sys2Proof.Machine

/-- A legal VALIDATE of an incomplete record computes no CRC, whatever REC holds (42_validator.md R101). -/
theorem validateWith_of_incomplete {s : State} (hl : validateLegal s.seq = true)
    (hc : s.ebl.toNat % 128 ≠ 0) (P : Params) : validateWith P s = .next (markIncomplete s) :=
  (if_pos hl).trans (if_neg (hc ∘ (isComplete_iff s).mp))

/-- The frame of a legal VALIDATE (42_validator.md R100). -/
theorem validateWith_frame {P : Params} {s t : State} (hl : validateLegal s.seq = true)
    (h : validateWith P s = .next t) :
    t = { s with vres := t.vres, crc := t.crc, seq := t.seq, cmdRes := t.cmdRes } := by
  rw [(validateWith_ok hl h).1]
  exact (validateWith_next hl h).1

/-- VALIDATE never writes REC: a legal one by its frame, a refused one since a command error writes no record
(42_validator.md R102). -/
theorem validateWith_record {P : Params} {s t : State} (h : validateWith P s = .next t) :
    t.record = s.record := by
  cases hl : validateLegal s.seq with
  | true => rw [validateWith_frame hl h]
  | false =>
    cases (validateWith_of_illegal hl P).symm.trans h
    exact raiseCmdError_record .seqErr s

/-! The statements. -/

/-- Settles O27: a legal VALIDATE by its frame, and REC unchanged by a refused one too. -/
theorem validateNeverMutatesTheRecord : Obligations.ValidateNeverMutatesTheRecord :=
  ⟨fun _ _ hq h => validateWith_frame ((validateLegal_iff _).mpr hq) h, fun _ _ h => validateWith_record h⟩

/-- Settles O24: the state an incomplete record leaves is the one the statement writes out. -/
theorem validateIncomplete : Obligations.ValidateIncomplete := fun _ hq hc =>
  validateWith_of_incomplete ((validateLegal_iff _).mpr hq) hc Config.params

end Sys2Proof.Machine
end

section
/-! The decoder's statements about every format (43_decoder.md): what DECODE writes, and when its rendering fails. -/

namespace Sys2Proof.Machine

/-- DECODE ends the arm of its format, run on the common fields (43_decoder.md R107). -/
theorem decodeEffect_cases (P : Params) (s : State) :
    formatByte s = 0 ∧ decodeEffect P s = finishCmd .decoded (reservedArm (commonFields P s)) ∨
    1 ≤ (formatByte s).toNat ∧ (formatByte s).toNat ≤ 4 ∧
      decodeEffect P s = finishCmd .decoded (uriArm P (commonFields P s)) ∨
    formatByte s = 5 ∧ decodeEffect P s = finishCmd .decoded (epcArm (commonFields P s)) ∨
    6 ≤ (formatByte s).toNat ∧ decodeEffect P s = finishCmd .decoded (unknownArm (commonFields P s)) := by
  unfold decodeEffect
  rcases dispatchFormat_cases P (formatByte s) (commonFields P s) with
    ⟨hf, h⟩ | ⟨hlo, hhi, h⟩ | ⟨hf, h⟩ | ⟨hf, h⟩ <;> rw [h]
  · exact .inl ⟨hf, rfl⟩
  · exact .inr (.inl ⟨hlo, hhi, rfl⟩)
  · exact .inr (.inr (.inl ⟨hf, rfl⟩))
  · exact .inr (.inr (.inr ⟨hf, rfl⟩))

/-! What DECODE writes (43_decoder.md R109). -/

theorem decodeEffect_frame (P : Params) (s : State) : decodeEffect P s = { s with
    record := (decodeEffect P s).record, seq := .decoded, cmdRes := .ok,
    dvKind := (decodeEffect P s).dvKind, dvFmt := (decodeEffect P s).dvFmt,
    dvMfr := (decodeEffect P s).dvMfr, mfrKnown := (decodeEffect P s).mfrKnown,
    dvLen := (decodeEffect P s).dvLen, dvTerm := (decodeEffect P s).dvTerm } := by
  rw [decodeEffect_eq]

theorem decodeEffect_record_of_dvKind_ne_uri {P : Params} {s : State}
    (hk : (decodeEffect P s).dvKind ≠ .uri) : (decodeEffect P s).record = s.record := by
  rcases decodeEffect_cases P s with ⟨-, h⟩ | ⟨-, -, h⟩ | ⟨-, h⟩ | ⟨-, h⟩ <;> rw [h] at hk ⊢
  case inr.inl => exact absurd rfl hk
  all_goals rfl

theorem read_uriRecord_other (P : Params) (m : Memory) {i : Nat} (hpos : i ≠ uriPos m)
    (hnext : i ≠ uriPos m + 1) : Memory.read (uriRecord P m) i = Memory.read m i := by
  simp [read_uriRecord, hpos, hnext]

/-- A URI decode leaves every byte of REC but the two from DV_TERM on: DV_TERM is the offset the scan answers. -/
theorem read_decodeEffect_of_dvKind_uri {P : Params} {s : State} {i : Nat}
    (hk : (decodeEffect P s).dvKind = .uri) (hterm : i ≠ (decodeEffect P s).dvTerm.toNat)
    (hnext : i ≠ (decodeEffect P s).dvTerm.toNat + 1) :
    Memory.read (decodeEffect P s).record i = Memory.read s.record i := by
  rcases decodeEffect_cases P s with ⟨-, h⟩ | ⟨-, -, h⟩ | ⟨-, h⟩ | ⟨-, h⟩ <;> rw [h] at hk
  case inr.inl =>
    have hpos : (decodeEffect P s).dvTerm.toNat = uriPos s.record :=
      (congrArg (·.dvTerm.toNat) h).trans (toNat_uriPos s.record)
    have hrec : (decodeEffect P s).record = uriRecord P s.record := congrArg (·.record) h
    rw [hpos] at hterm hnext
    rw [hrec, read_uriRecord_other P s.record hterm hnext]
  all_goals cases hk

/-! The rendering (43_decoder.md R118, R119). -/

/-- Each of the four URI formats has its row in the table of 30_encoding.md R74. -/
theorem exists_uriPrefix {f : Byte} (hlo : 1 ≤ f.toNat) (hhi : f.toNat ≤ 4) :
    ∃ chars, uriPrefix f = some chars := by
  have hf : f = 1 ∨ f = 2 ∨ f = 3 ∨ f = 4 := by bv_omega
  rcases hf with rfl | rfl | rfl | rfl <;> exact ⟨_, rfl⟩

theorem render_of_uri {s : State} {chars : List Byte} (hk : s.dvKind = .uri)
    (hp : uriPrefix s.dvFmt = some chars) : render s = .success (chars ++ viewPayload s) := by
  simp [render, hk, hp]

/-- The rendering of a decoded record is the failure for format 0x00, and a success for every other one. -/
theorem render_decodeEffect_cases (P : Params) (s : State) :
    formatByte s = 0 ∧ render (decodeEffect P s) = .reservedFormat ∨
    formatByte s ≠ 0 ∧ ∃ chars, render (decodeEffect P s) = .success chars := by
  rcases decodeEffect_cases P s with ⟨hf, h⟩ | ⟨hlo, hhi, h⟩ | ⟨hf, h⟩ | ⟨hf, h⟩ <;> rw [h]
  · exact .inl ⟨hf, rfl⟩
  · obtain ⟨chars, hp⟩ := exists_uriPrefix hlo hhi
    exact .inr ⟨fun h0 => by simp [h0] at hlo, _, render_of_uri rfl hp⟩
  · exact .inr ⟨by simp [hf], _, rfl⟩
  · exact .inr ⟨fun h0 => by simp [h0] at hf, _, rfl⟩

/-! The statements. -/

/-- Settles O33: the fields are those of `decodeEffect_eq`, and REC is written by the URI arm alone. -/
theorem decodeWritesTheViewAlone : Obligations.DecodeWritesTheViewAlone := by
  intro s hs
  have hfields := decodeEffect_eq Config.params s
  exact ⟨decodeEffect Config.params s, decodeWith_of_validOk hs _, congrArg (·.dvMfr) hfields,
    congrArg (·.mfrKnown) hfields, congrArg (·.dvFmt) hfields, decodeEffect_frame Config.params s,
    decodeEffect_record_of_dvKind_ne_uri, fun hk _ => read_decodeEffect_of_dvKind_uri hk⟩

/-- Settles O42: by the two ways a decoded record renders, which exclude each other. -/
theorem onlyTheReservedFormatFails : Obligations.OnlyTheReservedFormatFails := by
  intro s hs
  refine ⟨decodeEffect Config.params s, decodeWith_of_validOk hs _, (decodeEffect_ok _ s).1, ?_⟩
  rcases render_decodeEffect_cases Config.params s with ⟨hf, hr⟩ | ⟨hf, chars, hr⟩
  · exact ⟨iff_of_true hr hf, fun hne => absurd hf hne⟩
  · exact ⟨iff_of_false (by simp [hr]) hf, fun _ => ⟨chars, hr⟩⟩

end Sys2Proof.Machine
end

section
/-! The reset's statement (70_reset_and_hazards.md): the first command after reset. N resets to 0, so what REFRAME and RUN
do there is what they do with the empty capture, in which no byte of RAW and no parity latch is read. -/

namespace Sys2Proof.Machine

/-! The empty capture (41_reframer.md R96). -/

/-- The frame of no bits is its start bit. -/
theorem wireBits_of_bitCount_eq_zero {s : State} (h : bitCount s = 0) : wireBits s = [true] := by
  have hG : groupCount s = 0 := congrArg (· / 8) h
  have hr : partialBits s = 0 := congrArg (· % 8) h
  rw [wireBits, hG, hr]
  rfl

theorem reframedLength_of_bitCount_eq_zero {s : State} (h : bitCount s = 0) : reframedLength s = 1 :=
  congrArg List.length (wireBits_of_bitCount_eq_zero h)

theorem reframeEffect_ebl_of_bitCount_eq_zero {s : State} (h : bitCount s = 0) :
    (reframeEffect s).ebl = 0x0001 :=
  congrArg (BitVec.ofNat 16) (reframedLength_of_bitCount_eq_zero h)

theorem read_reframedRecord_zero_of_bitCount_eq_zero {s : State} (h : bitCount s = 0) :
    Memory.read (reframedRecord s) 0 = 0x80 := by
  rw [reframedRecord, wireBits_of_bitCount_eq_zero h]
  rfl

theorem read_reframedRecord_of_ne_zero_of_bitCount_eq_zero {s : State} (h : bitCount s = 0) {i : Nat}
    (hi : i ≠ 0) : Memory.read (reframedRecord s) i = 0x00 := by
  refine read_reframedRecord_past s ?_
  rw [reframedLength_of_bitCount_eq_zero h]
  exact Nat.pos_of_ne_zero hi

/-- RUN ends where its VALIDATE does when that finds the reframed record incomplete: nothing is decoded
(40_control.md R82). -/
theorem runWith_of_incomplete {P : Params} {s : State} (hcap : bitCount s ≤ P.rawCapBits)
    (hc : (reframeEffect s).ebl.toNat % 128 ≠ 0) :
    runWith P s = .next (markIncomplete (reframeEffect s)) := by
  rcases runWith_cases P s with ⟨hlong, -⟩ | ⟨-, hr⟩
  · omega
  · rw [hr, validateWith_of_incomplete rfl hc]
    rfl

/-! The statement. -/

/-- Settles O23: SEQ is IDLE, where VALIDATE and DECODE are refused; N is 0, so REFRAME writes the start bit alone, a
length that VALIDATE marks as incomplete with CRC and CMDRES as REFRAME left them. -/
theorem firstCommandAfterReset : Obligations.FirstCommandAfterReset := by
  intro raw par record s hs
  have hidle : s.seq = .idle := congrArg State.seq hs
  have hN : bitCount s = 0 := congrArg bitCount hs
  have hcap : bitCount s ≤ Config.params.rawCapBits := hN.trans_le (Nat.zero_le _)
  have hebl := reframeEffect_ebl_of_bitCount_eq_zero hN
  have hc : (reframeEffect s).ebl.toNat % 128 ≠ 0 := by rw [hebl]; decide
  exact ⟨validateWith_of_illegal (congrArg validateLegal hidle) Config.params,
    decodeWith_of_ne_validOk (by simp [hidle]) Config.params,
    _, _, exec_reframe_of_le hcap, runWith_of_incomplete hcap hc, hebl,
    read_reframedRecord_zero_of_bitCount_eq_zero hN,
    fun _ => read_reframedRecord_of_ne_zero_of_bitCount_eq_zero hN, rfl⟩

end Sys2Proof.Machine
end

section
/-! The encoding's statements (30_encoding.md): the decoders and the encoder, in both formats. -/

namespace Sys2Proof.Machine

/-! Format CMD (30_encoding.md R60, R61). -/

theorem wf_illegal_iff (b : Byte) : (Instr.illegal b).wf = true ↔ b = 0x00 ∨ 0x05 ≤ b.toNat := by
  simp [Instr.wf]

/-- Every byte but the four of the commands is ILLEGAL with that byte (30_encoding.md R61). -/
theorem decodeCmd_of_illegal {b : Byte} (h : b = 0x00 ∨ 0x05 ≤ b.toNat) : decodeCmd b = .illegal b := by
  have hne : b ≠ 0x01 ∧ b ≠ 0x02 ∧ b ≠ 0x03 ∧ b ≠ 0x04 := by bv_omega
  obtain ⟨h1, h2, h3, h4⟩ := hne
  rw [decodeCmd, if_neg h1, if_neg h2, if_neg h3, if_neg h4]

theorem encodeByte_decodeCmd (b : Byte) : encodeByte (decodeCmd b) = b := by
  unfold decodeCmd
  split_ifs with h1 h2 h3 h4
  · exact h1.symm
  · exact h2.symm
  · exact h3.symm
  · exact h4.symm
  · rfl

theorem decodeCmd_wf (b : Byte) : (decodeCmd b).wf = true := by
  unfold decodeCmd
  split_ifs with h1 h2 h3 h4
  case neg => exact (wf_illegal_iff b).mpr (by bv_omega)
  all_goals rfl

/-! Format DFF (30_encoding.md R67). -/

theorem wf_dffUnknown_iff (f : Byte) : (Instr.dffUnknown f).wf = true ↔ 0x06 ≤ f.toNat := by
  simp [Instr.wf]

theorem decodeDff_of_unknown {f : Byte} (h : 0x06 ≤ f.toNat) : decodeDff f = .dffUnknown f := by
  have hne : f ≠ 0x00 ∧ f ≠ 0x01 ∧ f ≠ 0x02 ∧ f ≠ 0x03 ∧ f ≠ 0x04 ∧ f ≠ 0x05 := by bv_omega
  obtain ⟨h0, h1, h2, h3, h4, h5⟩ := hne
  rw [decodeDff, if_neg h0, if_neg h1, if_neg h2, if_neg h3, if_neg h4, if_neg h5]

theorem encodeByte_decodeDff (f : Byte) : encodeByte (decodeDff f) = f := by
  unfold decodeDff
  split_ifs with h0 h1 h2 h3 h4 h5
  · exact h0.symm
  · exact h1.symm
  · exact h2.symm
  · exact h3.symm
  · exact h4.symm
  · exact h5.symm
  · rfl

theorem decodeDff_wf (f : Byte) : (decodeDff f).wf = true := by
  unfold decodeDff
  split_ifs with h0 h1 h2 h3 h4 h5
  case neg => exact (wf_dffUnknown_iff f).mpr (by bv_omega)
  all_goals rfl

theorem decodeDff_format (f : Byte) : (decodeDff f).format = .dff := by
  unfold decodeDff
  split_ifs <;> rfl

/-! Both formats. -/

/-- The decoder of a format, on one byte. -/
def decodeByte : Format → Byte → Instr
  | .cmd => decodeCmd
  | .dff => decodeDff

theorem decodeBytes_cons (fmt : Format) (b : Byte) (rest : List Byte) :
    decodeBytes fmt (b :: rest) = .ok (decodeByte fmt b, rest) := by
  cases fmt <;> rfl

/-- A well-formed instruction's own byte decodes to it in its own format: the tabled rows by their codes, the two rows
that carry a byte since well-formedness excludes the tabled ones. -/
theorem decodeByte_encodeByte {i : Instr} (h : i.wf = true) : decodeByte i.format (encodeByte i) = i := by
  cases i with
  | illegal b => exact decodeCmd_of_illegal ((wf_illegal_iff b).mp h)
  | dffUnknown f => exact decodeDff_of_unknown ((wf_dffUnknown_iff f).mp h)
  | reframe | validate | decode | run | dffReserved | dffUriHttpWww | dffUriHttpsWww | dffUriHttp
  | dffUriHttps | dffEpc => rfl

theorem decodeByte_wf (fmt : Format) (b : Byte) : (decodeByte fmt b).wf = true := by
  cases fmt with
  | cmd => exact decodeCmd_wf b
  | dff => exact decodeDff_wf b

theorem decodeByte_format (fmt : Format) (b : Byte) : (decodeByte fmt b).format = fmt := by
  cases fmt with
  | cmd => exact decodeCmd_format b
  | dff => exact decodeDff_format b

theorem encode_decodeByte (fmt : Format) (b : Byte) : encode (decodeByte fmt b) = [b] := by
  cases fmt with
  | cmd => exact congrArg (fun c => [c]) (encodeByte_decodeCmd b)
  | dff => exact congrArg (fun c => [c]) (encodeByte_decodeDff b)

/-! The statements. -/

/-- Settles O2: both directions by the decoder on one byte, since every encoding is one byte long. -/
theorem decodeAndEncodeAgree : Obligations.DecodeAndEncodeAgree := by
  refine ⟨fun i rest h => ?_, fun fmt b rest => ⟨decodeByte fmt b, decodeBytes_cons fmt b rest,
    decodeByte_wf fmt b, decodeByte_format fmt b, encode_decodeByte fmt b⟩⟩
  rw [encode, List.singleton_append, decodeBytes_cons, decodeByte_encodeByte h]

/-- Settles O1: each tabled byte meets the test of its row, and the others those of the row that carries its byte. -/
theorem tabledBytesDecodeAsTabled : Obligations.TabledBytesDecodeAsTabled :=
  ⟨⟨rfl, rfl, rfl, rfl, decodeCmd_of_illegal (by decide), decodeCmd_of_illegal (by decide),
      decodeCmd_of_illegal (by decide)⟩,
    rfl, rfl, rfl, rfl, rfl, rfl, decodeDff_of_unknown (by decide), decodeDff_of_unknown (by decide)⟩

end Sys2Proof.Machine
end

section
/-! The step's statements (20_memory.md, 60_exceptions.md R128, 70_reset_and_hazards.md R137): what a step does with the
oldest waiting event, for every parameter set and at the reference values. -/

namespace Sys2Proof.Machine

/-! The reference machine is the one of the reference values (00_scope.md R7). -/

theorem step_eq_stepWith (s : State) : step s = stepWith Config.params s := by
  rw [step, exec_eq_execWith, stepWith]

theorem runSteps_eq_runStepsWith (n : Nat) (s : State) :
    runSteps n s = runStepsWith Config.params n s := by
  induction n generalizing s with
  | zero => rfl
  | succ n ih => rw [runSteps, runStepsWith, step_eq_stepWith, funext ih]

theorem memWrite_eq_memWriteWith (s : State) (a : Addr) (v : Byte) :
    memWrite s a v = memWriteWith Config.params (execWith Config.params) s a v := by
  rw [memWrite, exec_eq_execWith]

/-! The events of a step (log 1). -/

theorem stepWith_idle (P : Params) {s : State} (h : s.pending = []) : stepWith P s = .next s :=
  serveNext_idle P _ h

theorem stepWith_read (P : Params) {s : State} {a : Addr} {rest : List BusEvent}
    (h : s.pending = hostRd a :: rest) :
    stepWith P s = .next { s with pending := rest, reads := s.reads ++ [memReadWith P s a] } :=
  serveNext_event P _ h

theorem stepWith_write (P : Params) {s : State} {a : Addr} {v : Byte} {rest : List BusEvent}
    (h : s.pending = hostWr a v :: rest) :
    stepWith P s = memWriteWith P (execWith P) { s with pending := rest } a v :=
  serveNext_event P _ h

theorem stepWith_reset (P : Params) {s : State} {rest : List BusEvent} (h : s.pending = .reset :: rest) :
    stepWith P s = .next (resetEvent P { s with pending := rest }) :=
  serveNext_event P _ h

/-- CMD stands at the same address in every map (20_memory.md R44). -/
theorem regAt_cmdAddr {P : Params} (hP : P.Ok) : regAt P 0x84 = .cmd :=
  (regAt_control hP (by decide) (by decide)).trans (by decide)

/-- A write to CMD issues the command its byte decodes to (20_memory.md R53). -/
theorem memWriteWith_cmd {P : Params} (hP : P.Ok) (M : Meanings) (s : State) (v : Byte) :
    memWriteWith P M s 0x84 v = M (decodeCmd v) s := by
  rw [memWriteWith, regAt_cmdAddr hP, writeReg]

theorem stepWith_command {P : Params} (hP : P.Ok) {s : State} {b : Byte} {rest : List BusEvent}
    (h : s.pending = hostWr 0x84 b :: rest) :
    stepWith P s = execWith P (decodeCmd b) { s with pending := rest } :=
  (stepWith_write P h).trans (memWriteWith_cmd hP _ _ b)

theorem step_command {s : State} {b : Byte} {rest : List BusEvent} (h : s.pending = hostWr 0x84 b :: rest) :
    step s = exec (decodeCmd b) { s with pending := rest } := by
  rw [step_eq_stepWith, stepWith_command params_ok h, exec_eq_execWith]

theorem step_write {s : State} {a : Addr} {v : Byte} {rest : List BusEvent}
    (h : s.pending = hostWr a v :: rest) : step s = memWrite { s with pending := rest } a v := by
  rw [step_eq_stepWith, stepWith_write _ h, memWrite_eq_memWriteWith]

theorem step_read {s : State} {a : Addr} {rest : List BusEvent} (h : s.pending = hostRd a :: rest) :
    step s = .next { s with pending := rest, reads := s.reads ++ [memRead s a] } :=
  (step_eq_stepWith s).trans (stepWith_read _ h)

/-! The refused accesses (20_memory.md R49, R56). -/

theorem serveEvent_secondAgent (P : Params) (M : Meanings) (bytes : Nat) (a : Addr) (d : Dir) (s : State) :
    serveEvent P M (.access .other bytes a d) s = .refused .secondAgent := by
  simp [serveEvent]

theorem serveEvent_otherWidth (P : Params) (M : Meanings) {bytes : Nat} (h : bytes ≠ 1) (a : Addr) (d : Dir)
    (s : State) : serveEvent P M (.access .owner bytes a d) s = .refused (.otherWidth bytes) := by
  simp [serveEvent, h]

/-! The arrays a reset event leaves (10_state.md R37). -/

theorem arrayOk_ofFn (f : Nat → Byte) (n : Nat) : ArrayOk (Memory.ofFn f n) n :=
  ⟨Memory.wf_ofFn f n, fun _ hc => (Memory.mem_ofFn hc).1⟩

/-- A listed byte of a one-bit array is 0x01: 0x00 is not listed. -/
theorem and_one_eq_one {b : Byte} (h : b &&& 0x01 ≠ Memory.unlisted) : b &&& 0x01 = 0x01 := by
  revert b
  decide

theorem arraysOkWith_resetEvent (P : Params) (s : State) : ArraysOkWith P (resetEvent P s) := by
  refine ⟨arrayOk_ofFn _ _, arrayOk_ofFn _ _, arrayOk_ofFn _ _, fun c hc => ?_⟩
  obtain ⟨-, hval, hlisted⟩ := Memory.mem_ofFn hc
  rw [hval] at hlisted ⊢
  exact and_one_eq_one hlisted

/-! The statements. -/

/-- Settles O58: the step serves the head of the host's events; a write to CMD is one by the map every parameter set
shares there. -/
theorem stepServesTheHostForEveryParameterSet : Obligations.StepServesTheHostForEveryParameterSet :=
  fun P _ hP =>
    ⟨fun _ _ => stepWith_command hP, fun _ _ _ => stepWith_write P, fun _ _ => stepWith_read P,
      fun _ h => ⟨_, _, _, _, _, stepWith_reset P h, arraysOkWith_resetEvent P _, rfl⟩, stepWith_idle P⟩

/-- Settles O4: `decodeTableWord` gives the command of the byte `withFetchWord` puts first. -/
theorem stepRunsTheCommandWritten : Obligations.StepRunsTheCommandWritten := by
  refine ⟨fun s b rest h => ⟨decodeCmd_wf b, step_command h⟩, fun s w i h => ?_⟩
  have hi : decodeCmd (BitVec.ofNat 8 w) = i := by
    unfold decodeTableWord at h
    split_ifs at h
    exact Option.some.inj h
  rw [← hi]
  exact step_command (placeCommand_pending w s)

/-- Settles O5: the three kinds of event that are no command and no reset. -/
theorem stepServesReadsWritesAndIdles : Obligations.StepServesReadsWritesAndIdles :=
  ⟨fun _ _ _ => step_read, fun _ _ _ _ => step_write, fun _ => step_idle⟩

/-- Settles O6: an event of another agent is refused first, whatever its width. -/
theorem otherWidthsAndAgentsAreRefused : Obligations.OtherWidthsAndAgentsAreRefused := by
  intro s agent bytes a d rest h
  constructor
  · rintro rfl
    exact (step_event h).trans (serveEvent_secondAgent _ _ _ _ _ _)
  · rintro rfl hbytes
    exact (step_event h).trans (serveEvent_otherWidth _ _ hbytes _ _ _)

/-- Settles O7: a reset event draws its arrays inside their bounds and leaves the rest at `State.atReset`. -/
theorem resetEventRestoresTheRegisters : Obligations.ResetEventRestoresTheRegisters := fun _ _ h =>
  ⟨_, _, _, _, _, step_reset h, arraysOkWith_resetEvent _ _, rfl⟩

/-- Settles O57: `exec` and `execWith` agree arm by arm, and a step and a run are built from them. -/
theorem referenceMachineIsTheInstanceAtTheReferenceValues :
    Obligations.ReferenceMachineIsTheInstanceAtTheReferenceValues :=
  ⟨fun i s => congrFun (congrFun exec_eq_execWith i) s, step_eq_stepWith, runSteps_eq_runStepsWith,
    rfl, rfl, rfl, rfl, rfl, rfl⟩

end Sys2Proof.Machine
end

section
/-! The invariant's statements (10_state.md R38): it holds after reset, each thing a step can do keeps it, and it
excludes the one length VALIDATE faults on. -/

namespace Sys2Proof

open Sys2Proof.Machine

/-! After reset (10_state.md R36). -/

theorem stateInvWith_atReset {P : Params} {raw par record : Memory}
    (h : ArraysOkWith P (State.atReset raw par record)) : StateInvWith P (State.atReset raw par record) where
  arrays := h
  sequencer := by simp [SequencerOk, State.atReset]
  length := by simp [LengthOk, State.atReset]
  record := by simp [RecordOk, State.atReset]
  crc := fun _ => rfl
  view := by simp [ViewOk, State.atReset]
  errorBit := fun _ => rfl

/-! What leaves the sequencer and the results alone. -/

theorem StateInvWith.set_latches {P : Params} {s : State} (h : StateInvWith P s) {raw par : Memory}
    (hraw : ArrayOk raw P.rawBytes) (hpar : ArrayOk par P.parSlots) (hbit : ∀ c ∈ par, c.2 = 0x01)
    (n : Half) : StateInvWith P { s with raw := raw, par := par, rawNbits := n } := by
  obtain ⟨-, -, hrecord, -⟩ := h.arrays
  exact ⟨⟨hraw, hpar, hrecord, hbit⟩, h.sequencer, h.length, h.record, h.crc, h.view, h.errorBit⟩

theorem StateInvWith.set_host {P : Params} {s : State} (h : StateInvWith P s) (pending : List BusEvent)
    (reads : List Byte) (draws : Nat) :
    StateInvWith P { s with pending := pending, reads := reads, draws := draws } :=
  ⟨h.arrays, h.sequencer, h.length, h.record, h.crc, h.view, h.errorBit⟩

theorem StateInvWith.after_raiseCmdError {P : Params} {s : State} (h : StateInvWith P s) (e : CmdError) :
    StateInvWith P (raiseCmdError e s) :=
  ⟨h.arrays, h.sequencer, h.length, h.record, h.crc, h.view, nofun⟩

theorem stateInvWith_resetEvent (P : Params) (s : State) : StateInvWith P (resetEvent P s) :=
  (stateInvWith_atReset (arraysOkWith_resetEvent P s)).set_host _ _ _

/-- A write inside an array keeps its bounds and its canonical form. -/
theorem arrayOk_write {m : Memory} {size a : Nat} (h : ArrayOk m size) (ha : a < size) (v : Byte) :
    ArrayOk (Memory.write m a v) size :=
  ⟨Memory.wf_write a v h.1, Memory.bound_write v ha h.2⟩

/-- A parity latch holds one bit after a write: what is written is bit 0 of a byte. -/
theorem parityBits_write {m : Memory} (h : ∀ c ∈ m, c.2 = 0x01) (g : Nat) (v : Byte) :
    ∀ c ∈ Memory.write m g (v &&& 0x01), c.2 = 0x01 := by
  intro c hc
  rcases Memory.mem_write hc with ⟨rfl, hlisted⟩ | ⟨hc, -⟩
  · exact and_one_eq_one hlisted
  · exact h c hc

/-! REFRAME (41_reframer.md R88 to R95). -/

theorem arrayOk_reframedRecord {s : State} {size : Nat} (h : reframedLength s ≤ 8 * size) :
    ArrayOk (reframedRecord s) size :=
  ⟨wf_writeBits _ _ Memory.wf_zeroed,
    bound_writeBits _ (by rw [Nat.zero_add]; exact h) (by simp [Memory.zeroed])⟩

theorem one_le_reframedLength (s : State) : 1 ≤ reframedLength s := by
  rw [reframedLength_eq]
  omega

/-- A REFRAME within the capacity leaves a state that meets the invariant: all but the input latches and ERR_SEEN is
new. -/
theorem StateInvWith.after_reframeEffect {P : Params} (hP : P.Ok) {s : State} (h : StateInvWith P s)
    (hcap : bitCount s ≤ P.rawCapBits) : StateInvWith P (reframeEffect s) := by
  obtain ⟨hraw, hpar, -, hbit⟩ := h.arrays
  have hebl := toNat_reframeEffect_ebl hP hcap
  have hone := one_le_reframedLength s
  have hle : reframedLength s ≤ 8 * P.recBytes := (reframedLength_le_maxLength hcap).trans hP.1
  exact
    { arrays := ⟨hraw, hpar, arrayOk_reframedRecord hle, hbit⟩
      sequencer := by simp [SequencerOk, reframeEffect]
      length := ⟨hebl.trans_le hle, fun _ => hone.trans_eq hebl.symm, nofun⟩
      record := ⟨fun _ o _ ho => getBit_reframedRecord_past s (hebl ▸ ho),
        fun _ => getBit_reframedRecord_zero s⟩
      crc := fun _ => rfl
      view := by simp [ViewOk, reframeEffect]
      errorBit := fun _ => rfl }

/-! VALIDATE (42_validator.md R97 to R103). -/

/-- Where VALIDATE is legal a record exists, zero past its end, and no view does. -/
theorem StateInvWith.of_validateLegal {P : Params} {s : State} (h : StateInvWith P s)
    (hl : validateLegal s.seq = true) : s.seq ≠ .idle ∧ s.dvKind = .none ∧
      ∀ o < 8 * P.recBytes, s.ebl.toNat ≤ o → getBit s.record o = false := by
  obtain ⟨-, -, -, -, -, hview⟩ := h.sequencer
  refine ⟨fun hq => by simp [hq, validateLegal] at hl, ?_, h.record.1 ((validateLegal_iff _).mp hl)⟩
  by_contra hk
  simp [hview hk, validateLegal] at hl

/-- The invariant excludes the length VALIDATE faults on (10_state.md R21, R38). -/
theorem StateInvWith.crcInRange_of_complete {P : Params} {s : State} (h : StateInvWith P s) (hidle : s.seq ≠ .idle)
    (hc : isComplete s = true) : crcInRange P s = true := by
  obtain ⟨hmax, hmin, -⟩ := h.length
  have hmin := hmin hidle
  rw [isComplete_iff] at hc
  rw [crcInRange_iff]
  omega

/-- A VALIDATE that ends in `q` with result `v` and CRC `c` keeps the invariant when the three agree. -/
theorem StateInvWith.set_validation {P : Params} {s : State} (h : StateInvWith P s)
    (hl : validateLegal s.seq = true) {v : VRes} {c : Half} {q : SeqState}
    (hv : v = .valid ∧ q = .validOk ∧ isComplete s = true ∨
      (v = .crcMismatch ∨ v = .incomplete ∧ c = 0x0000) ∧ q = .validFail) :
    StateInvWith P { s with vres := v, crc := c, seq := q, cmdRes := .ok } := by
  obtain ⟨hidle, hkind, hzero⟩ := h.of_validateLegal hl
  obtain ⟨hmax, hmin, -⟩ := h.length
  exact
    { arrays := h.arrays
      sequencer := by rcases hv with ⟨rfl, rfl, -⟩ | ⟨rfl | ⟨rfl, -⟩, rfl⟩ <;> simp [SequencerOk, hkind]
      length := ⟨hmax, fun _ => hmin hidle, fun hvalid => by
        rcases hv with ⟨-, -, hc⟩ | ⟨rfl | ⟨rfl, -⟩, -⟩
        · exact (isComplete_iff s).mp hc
        · cases hvalid
        · cases hvalid⟩
      record := ⟨fun _ => hzero, fun _ => h.record.2 hidle⟩
      crc := fun hnone => by
        rcases hv with ⟨rfl, -, -⟩ | ⟨rfl | ⟨-, hc⟩, -⟩
        · simp at hnone
        · simp at hnone
        · exact hc
      view := h.view
      errorBit := fun _ => rfl }

theorem StateInvWith.after_validateWith {P : Params} {s t : State} (h : StateInvWith P s)
    (ht : validateWith P s = .next t) : StateInvWith P t := by
  cases hl : validateLegal s.seq with
  | false =>
    cases (validateWith_of_illegal hl P).symm.trans ht
    exact h.after_raiseCmdError .seqErr
  | true =>
    obtain ⟨hframe, hends⟩ := validateWith_next hl ht
    rw [hframe]
    refine h.set_validation hl ?_
    rcases hends with ⟨hv, hq, hc, -⟩ | ⟨hv, hq, -⟩ | ⟨hv, hcrc, hq, -⟩
    · exact .inl ⟨hv, hq, hc⟩
    · exact .inr ⟨.inl hv, hq⟩
    · exact .inr ⟨.inr ⟨hv, hcrc⟩, hq⟩

/-! DECODE (43_decoder.md R107 to R117). -/

/-- The URI writes stay inside a record of sixteen bytes and more. -/
theorem arrayOk_uriRecord (P : Params) {m : Memory} {size : Nat} (h : ArrayOk m size) (hsize : 16 ≤ size) :
    ArrayOk (uriRecord P m) size := by
  obtain ⟨-, hpos, -⟩ := uriPos_spec m
  rcases uriRecord_cases P m with hr | hr <;> rw [hr]
  · exact h
  · exact arrayOk_write (arrayOk_write h (by omega) _) (by omega) _

/-- The URI writes start at byte 2, so the start bit stays. -/
theorem getBit_uriRecord_zero (P : Params) (m : Memory) : getBit (uriRecord P m) 0 = getBit m 0 := by
  obtain ⟨hpos, -⟩ := uriPos_spec m
  exact congrArg (BitVec.getLsbD · 7) (read_uriRecord_other P m (by omega) (by omega))

/-- The length an unknown format stores, for a record of sixteen bytes and more (43_decoder.md R116). -/
theorem toNat_unknownLength {n : Nat} (hlo : 4 ≤ n) (hhi : n < 256) :
    (BitVec.ofNat 8 n - 4).toNat = n - 4 := by
  bv_omega

/-- The view registers DECODE leaves, by format (10_state.md R28 to R32). -/
theorem viewOk_decodeEffect {P : Params} {s : State} (hlo : 4 ≤ recordBytes s) (hhi : recordBytes s < 256) :
    ViewOk P (decodeEffect P s) := by
  have hlen : (BitVec.ofNat 8 (recordBytes s) - 4).toNat = s.ebl.toNat / 8 - 4 :=
    toNat_unknownLength hlo hhi
  obtain ⟨hpos2, hpos14, -⟩ := uriPos_spec s.record
  have hterm := toNat_uriPos s.record
  have hulen := toNat_uriLength s.record
  rcases decodeEffect_cases P s with ⟨hf, h⟩ | ⟨hflo, hfhi, h⟩ | ⟨hf, h⟩ | ⟨hf, h⟩ <;> rw [h]
  · simp [ViewOk, reservedArm, hf]
  · exact ⟨nofun, nofun, fun _ => ⟨hflo, hfhi, hterm.symm ▸ hpos2, hterm.symm ▸ hpos14, hterm.symm ▸ hulen⟩,
      nofun, nofun, fun _ => rfl⟩
  · simp [ViewOk, epcArm, hf]
  · exact ⟨nofun, nofun, nofun, nofun, fun _ => ⟨hf, hlen, rfl⟩, fun _ => rfl⟩

/-- The record DECODE leaves: the one before, or that one with the URI writes. -/
theorem decodeEffect_record_cases (P : Params) (s : State) :
    (decodeEffect P s).record = s.record ∨ (decodeEffect P s).record = uriRecord P s.record := by
  rcases decodeEffect_cases P s with ⟨-, h⟩ | ⟨-, -, h⟩ | ⟨-, h⟩ | ⟨-, h⟩ <;> rw [h]
  case inr.inl => exact .inr rfl
  all_goals exact .inl rfl

theorem decodeEffect_dvKind_ne_none (P : Params) (s : State) : (decodeEffect P s).dvKind ≠ .none :=
  (dispatchFormat_frame P (formatByte s) (commonFields P s)).2

theorem StateInvWith.after_decodeEffect {P : Params} (hP : P.Ok) {s : State} (h : StateInvWith P s)
    (hq : s.seq = .validOk) : StateInvWith P (decodeEffect P s) := by
  obtain ⟨-, -, -, hrec⟩ := hP
  obtain ⟨hraw, hpar, hrecord, hbit⟩ := h.arrays
  obtain ⟨-, -, hok, -⟩ := h.sequencer
  obtain ⟨hvalid, -⟩ := hok.mp hq
  obtain ⟨hmax, hmin, hcomplete⟩ := h.length
  have hidle : s.seq ≠ .idle := by simp [hq]
  have hmin := hmin hidle
  have hcomplete := hcomplete hvalid
  have hkind := decodeEffect_dvKind_ne_none P s
  have hview : ViewOk P (decodeEffect P s) :=
    viewOk_decodeEffect (show 4 ≤ s.ebl.toNat / 8 by omega) (show s.ebl.toNat / 8 < 256 by omega)
  have hrecord' : ArrayOk (decodeEffect P s).record P.recBytes ∧
      getBit (decodeEffect P s).record 0 = true := by
    rcases decodeEffect_record_cases P s with hr | hr <;> rw [hr]
    · exact ⟨hrecord, h.record.2 hidle⟩
    · exact ⟨arrayOk_uriRecord P hrecord (by omega),
        (getBit_uriRecord_zero P s.record).trans (h.record.2 hidle)⟩
  rw [decodeEffect_frame] at hkind hview hrecord' ⊢
  exact
    { arrays := ⟨hraw, hpar, hrecord'.1, hbit⟩
      sequencer := by simp [SequencerOk, hvalid, hkind]
      length := ⟨hmax, fun _ => hmin, fun _ => hcomplete⟩
      record := ⟨by simp, fun _ => hrecord'.2⟩
      crc := by simp [CrcOk, hvalid]
      view := hview
      errorBit := fun _ => rfl }

theorem StateInvWith.after_decodeWith {P : Params} (hP : P.Ok) {s t : State} (h : StateInvWith P s)
    (ht : decodeWith P s = .next t) : StateInvWith P t := by
  rcases decodeWith_cases P s with ⟨hq, hd⟩ | ⟨-, hd⟩ <;> cases hd.symm.trans ht
  · exact h.after_decodeEffect hP hq
  · exact h.after_raiseCmdError .seqErr

/-! RUN and the commands (40_control.md R76, R82). -/

theorem StateInvWith.after_runWith {P : Params} (hP : P.Ok) {s t : State} (h : StateInvWith P s)
    (ht : runWith P s = .next t) : StateInvWith P t := by
  rcases runWith_cases P s with ⟨-, hr⟩ | ⟨hcap, hr⟩ <;> rw [hr] at ht
  · cases ht
    exact h.after_raiseCmdError .lenErr
  · obtain ⟨u, hv, hu⟩ := andThen_eq_next_iff.mp ht
    have hinv : StateInvWith P u := (h.after_reframeEffect hP hcap).after_validateWith hv
    split_ifs at hu
    · exact hinv.after_decodeWith hP hu
    · cases hu
      exact hinv

/-- Every row of format CMD keeps the invariant. A row of format DFF by itself would not: it names a view outside
DECODED (log 9). -/
theorem StateInvWith.after_execWith {P : Params} (hP : P.Ok) {i : Instr} (hi : i.format = .cmd) {s t : State}
    (h : StateInvWith P s) (ht : execWith P i s = .next t) : StateInvWith P t := by
  cases i with
  | reframe =>
    rcases reframeWith_cases P s with ⟨-, hr⟩ | ⟨hcap, hr⟩ <;> cases hr.symm.trans ht
    · exact h.after_raiseCmdError .lenErr
    · exact h.after_reframeEffect hP hcap
  | validate => exact h.after_validateWith ht
  | decode => exact h.after_decodeWith hP ht
  | run => exact h.after_runWith hP ht
  | illegal b =>
    cases ht
    exact h.after_raiseCmdError .illegalCmd
  | dffReserved | dffUriHttpWww | dffUriHttpsWww | dffUriHttp | dffUriHttps | dffEpc | dffUnknown _ =>
    cases hi

/-! A step (60_exceptions.md R128). -/

theorem StateInvWith.after_memWriteWith {P : Params} (hP : P.Ok) {s t : State} {a : Addr} {v : Byte}
    (h : StateInvWith P s) (ht : memWriteWith P (execWith P) s a v = .next t) :
    StateInvWith P t := by
  obtain ⟨hraw, hpar, -, hbit⟩ := h.arrays
  obtain ⟨hrawBound, hparBound, -⟩ := regAt_bounds P a
  rcases memWriteWith_cases P (execWith P) s a v with
    ⟨g, hg, hw⟩ | ⟨g, hg, hw⟩ | ⟨-, hw⟩ | ⟨-, hw⟩ | ⟨-, hw⟩ | hw <;> rw [hw] at ht
  case inr.inr.inr.inr.inl => exact h.after_execWith hP (decodeCmd_format v) ht
  all_goals cases ht
  · exact h.set_latches (arrayOk_write hraw (hrawBound g hg) v) hpar hbit s.rawNbits
  · exact h.set_latches hraw (arrayOk_write hpar (hparBound g hg) _) (parityBits_write hbit g v) s.rawNbits
  · exact h.set_latches hraw hpar hbit _
  · exact h.set_latches hraw hpar hbit _
  · exact h

theorem StateInvWith.after_serveEvent {P : Params} (hP : P.Ok) {e : BusEvent} {s t : State}
    (h : StateInvWith P s) (ht : serveEvent P (execWith P) e s = .next t) : StateInvWith P t := by
  rcases serveEvent_cases P (execWith P) e s with
    ⟨r, hr⟩ | ⟨-, hreset⟩ | ⟨a, -, hread⟩ | ⟨a, v, -, hwrite⟩
  · cases hr.symm.trans ht
  · cases hreset.symm.trans ht
    exact stateInvWith_resetEvent P s
  · cases hread.symm.trans ht
    exact h.set_host _ _ _
  · exact h.after_memWriteWith hP (hwrite.symm.trans ht)

theorem StateInvWith.after_stepWith {P : Params} (hP : P.Ok) {s t : State} (h : StateInvWith P s)
    (ht : stepWith P s = .next t) : StateInvWith P t := by
  cases hp : s.pending with
  | nil =>
    cases (stepWith_idle P hp).symm.trans ht
    exact h
  | cons e rest => exact (h.set_host rest _ _).after_serveEvent hP ((serveNext_event P _ hp).symm.trans ht)

/-! No fault (60_exceptions.md R122). -/

theorem StateInvWith.validateWith_answers {P : Params} {s : State} (h : StateInvWith P s) :
    ∃ t, validateWith P s = .next t := by
  rcases validateWith_cases P s with ⟨-, hv⟩ | ⟨-, -, hv⟩ | ⟨-, -, -, hv⟩ | ⟨hl, hc, hrange, -⟩
  · exact ⟨_, hv⟩
  · exact ⟨_, hv⟩
  · exact ⟨_, hv⟩
  · simp [h.crcInRange_of_complete (h.of_validateLegal hl).1 hc] at hrange

theorem decodeWith_answers (P : Params) (s : State) : ∃ t, decodeWith P s = .next t := by
  rcases decodeWith_cases P s with ⟨-, hd⟩ | ⟨-, hd⟩ <;> exact ⟨_, hd⟩

theorem StateInvWith.execWith_answers {P : Params} (hP : P.Ok) (i : Instr) {s : State}
    (h : StateInvWith P s) : ∃ t, execWith P i s = .next t := by
  cases i with
  | reframe =>
    obtain ⟨t, ht, -⟩ := reframeWith_ne_seqErr P s
    exact ⟨t, ht⟩
  | validate => exact h.validateWith_answers
  | decode => exact decodeWith_answers P s
  | run =>
    obtain ⟨t, ht, -⟩ := runWith_ne_seqErr hP s
    exact ⟨t, ht⟩
  | illegal _ | dffReserved | dffUriHttpWww | dffUriHttpsWww | dffUriHttp | dffUriHttps | dffEpc
  | dffUnknown _ => exact ⟨_, rfl⟩

theorem StateInvWith.memWriteWith_answers {P : Params} (hP : P.Ok) {s : State} (h : StateInvWith P s)
    (a : Addr) (v : Byte) : ∃ t, memWriteWith P (execWith P) s a v = .next t := by
  rcases memWriteWith_cases P (execWith P) s a v with
    ⟨_, _, hw⟩ | ⟨_, _, hw⟩ | ⟨_, hw⟩ | ⟨_, hw⟩ | ⟨_, hw⟩ | hw <;> rw [hw]
  case inr.inr.inr.inr.inl => exact h.execWith_answers hP _
  all_goals exact ⟨_, rfl⟩

/-- An event is answered, or it is an access that is refused. -/
theorem StateInvWith.serveEvent_answers {P : Params} (hP : P.Ok) (e : BusEvent) {s : State}
    (h : StateInvWith P s) :
    (∃ t, serveEvent P (execWith P) e s = .next t) ∨
    ∃ agent bytes a d r, e = .access agent bytes a d ∧ (agent = .other ∨ bytes ≠ 1) ∧
      serveEvent P (execWith P) e s = .refused r := by
  rcases e with ⟨agent, bytes, a, d⟩ | _
  · rcases agent with _ | _
    · by_cases hbytes : bytes = 1
      · subst hbytes
        rcases d with _ | v
        · exact .inl ⟨_, rfl⟩
        · exact .inl (h.memWriteWith_answers hP a v)
      · exact .inr ⟨_, _, _, _, _, rfl, .inr hbytes, serveEvent_otherWidth _ _ hbytes _ _ _⟩
    · exact .inr ⟨_, _, _, _, _, rfl, .inl rfl, serveEvent_secondAgent _ _ _ _ _ _⟩
  · exact .inl ⟨_, rfl⟩

theorem StateInvWith.stepWith_answers {P : Params} (hP : P.Ok) {s : State} (h : StateInvWith P s) :
    (∃ t, stepWith P s = .next t) ∨
    ∃ agent bytes a d rest r, s.pending = .access agent bytes a d :: rest ∧
      (agent = .other ∨ bytes ≠ 1) ∧ stepWith P s = .refused r := by
  cases hp : s.pending with
  | nil => exact .inl ⟨_, stepWith_idle P hp⟩
  | cons e rest =>
    have hstep : stepWith P s = _ := serveNext_event P (execWith P) hp
    rw [hstep]
    rcases (h.set_host rest s.reads s.draws).serveEvent_answers hP e with ht | hr
    · exact .inl ht
    · obtain ⟨agent, bytes, a, d, r, rfl, hwhy, hr⟩ := hr
      exact .inr ⟨agent, bytes, a, d, rest, r, rfl, hwhy, hr⟩

/-! The statements. -/

/-- Settles O59: the invariant holds after reset, `StateInvWith.after_stepWith` keeps it, and a step that answers no state is
refused. -/
theorem everyStepKeepsTheInvariantForEveryParameterSet :
    Obligations.EveryStepKeepsTheInvariantForEveryParameterSet := by
  refine fun P hP => ⟨fun _ _ _ => stateInvWith_atReset, fun s t h => h.after_stepWith hP, fun s f h hf => ?_⟩
  rcases h.stepWith_answers hP with ⟨t, ht⟩ | ⟨_, _, _, _, _, r, -, -, hr⟩
  · cases ht.symm.trans hf
  · cases hr.symm.trans hf

/-- Settles O10: the reference values are a parameter set that meets 00_scope.md R8. -/
theorem everyStepKeepsTheInvariant : Obligations.EveryStepKeepsTheInvariant := fun s _ h ht =>
  h.after_stepWith params_ok ((step_eq_stepWith s).symm.trans ht)

/-- Settles O11: a step faults on one length only, which the invariant excludes. -/
theorem invariantStatesNeverFault : Obligations.InvariantStatesNeverFault := by
  intro s h
  rw [step_eq_stepWith]
  exact h.stepWith_answers params_ok

/-- Settles O9: no array holds anything at `State.reset`. -/
theorem invariantHoldsAtReset : Obligations.InvariantHoldsAtReset :=
  ⟨stateInvWith_atReset (by simp [ArraysOkWith, ArrayOk, Memory.wf, State.atReset]),
    fun _ _ _ => stateInvWith_atReset⟩

end Sys2Proof
end

section
/-! How commands end (40_control.md R77 to R80), along one command and along a run (60_exceptions.md R136). -/

namespace Sys2Proof

open Sys2Proof.Machine

/-! One command. -/

theorem issue_of_illegal {b : Byte} (h : b = 0x00 ∨ 0x05 ≤ b.toNat) (s : State) :
    issue b s = .next (raiseCmdError .illegalCmd s) := by
  rw [issue, decodeCmd_of_illegal h]
  rfl

theorem memWrite_cmd (s : State) (v : Byte) : memWrite s 0x84 v = issue v s :=
  memWriteWith_cmd params_ok exec s v

theorem result_ne_ok (e : CmdError) : e.result ≠ .ok := by
  cases e <;> simp [CmdError.result]

/-! A run without reset. -/

theorem reset_notMem_of_step {s t : State} (h : step s = .next t) (hreset : .reset ∉ s.pending) :
    .reset ∉ t.pending := by
  rw [step_pending h]
  exact hreset ∘ List.mem_of_mem_tail

/-- No step of a run without reset clears ERR_SEEN. -/
theorem runSteps_errSeen {n : Nat} {s t : State} (hs : s.errSeen = true) (hreset : .reset ∉ s.pending)
    (h : runSteps n s = .next t) : t.errSeen = true := by
  induction n generalizing s with
  | zero =>
    cases h
    exact hs
  | succ n ih =>
    obtain ⟨u, hu, hrest⟩ := andThen_eq_next_iff.mp h
    have hstep : stepWith Config.params s = .next u := (step_eq_stepWith s).symm.trans hu
    have hhead : s.pending.head? ≠ some .reset := fun hp => hreset (List.mem_of_head? hp)
    exact ih (stepWith_errSeen hs hhead hstep) (reset_notMem_of_step hu hreset) hrest

/-- A run without reset that ends with ERR_SEEN = 0 began so, and the invariant gives CMDRES = OK. -/
theorem StateInvWith.ok_of_runSteps {n : Nat} {s t : State} (h : StateInv s) (hreset : .reset ∉ s.pending)
    (ht : runSteps n s = .next t) (hend : t.errSeen = false) : s.errSeen = false ∧ s.cmdRes = .ok := by
  have hclear : s.errSeen = false := by
    by_contra hs
    simp [runSteps_errSeen (by simpa using hs) hreset ht] at hend
  exact ⟨hclear, h.errorBit hclear⟩

/-! The statements. -/

/-- Settles O13: the two ways a command ends, with the error written as its CMDRES code. -/
theorem commandsEndInErrorOrSuccess : Obligations.CommandsEndInErrorOrSuccess := by
  intro b s t h
  rcases issue_ends h with ⟨e, rfl⟩ | hok
  · exact .inl ⟨result_ne_ok e, rfl⟩
  · exact .inr hok

/-- Settles O15, by induction on the run: every state on the way begins a run without reset that ends with
ERR_SEEN = 0. -/
theorem anErrorFreeRunRefusedNothing : Obligations.AnErrorFreeRunRefusedNothing := by
  intro n
  induction n with
  | zero =>
    intro s t hinv hreset ht hend k hk
    cases Nat.le_zero.mp hk
    exact ⟨s, rfl, hinv.ok_of_runSteps hreset ht hend⟩
  | succ n ih =>
    intro s t hinv hreset ht hend k hk
    cases k with
    | zero => exact ⟨s, rfl, hinv.ok_of_runSteps hreset ht hend⟩
    | succ k =>
      obtain ⟨u, hu, hrest⟩ := andThen_eq_next_iff.mp ht
      have hinv' : StateInv u := everyStepKeepsTheInvariant s u hinv hu
      obtain ⟨v, hv, hok⟩ :=
        ih u t hinv' (reset_notMem_of_step hu hreset) hrest hend k (Nat.le_of_succ_le_succ hk)
      exact ⟨v, andThen_eq_next_iff.mpr ⟨u, hu, hv⟩, hok⟩

/-- Settles O3: the bytes R77 names decode to ILLEGAL, and STATUS and CMDRES read the codes of the error. -/
theorem illegalCommandChangesOnlyTheErrorFields : Obligations.IllegalCommandChangesOnlyTheErrorFields := by
  refine ⟨fun _ _ => rfl, fun b s h => issue_of_illegal h s, fun raw par record => ?_⟩
  refine ⟨_, (memWrite_cmd _ _).trans (issue_of_illegal (.inl rfl) _), ?_, ?_⟩
  · simp [statusByte, SeqState.code, State.atReset]
  · exact (memRead_cmdRes _).trans rfl

end Sys2Proof
end

section
/-! VALIDATE's statements about complete records (42_validator.md R97 to R105), and the byte-wise CRC (R104). -/

namespace Sys2Proof.Machine

/-! A complete record (42_validator.md R97, R99). -/

theorem validateWith_of_crcInRange {P : Params} {s : State} (hl : validateLegal s.seq = true)
    (hc : isComplete s = true) (hrange : crcInRange P s = true) : validateWith P s = .next (checkCrc s) := by
  rw [validateWith, if_pos hl, if_pos hc, if_pos hrange]

theorem validateWith_of_complete {P : Params} {s : State} (hl : validateLegal s.seq = true)
    (hc : s.ebl.toNat % 128 = 0) (hlo : 1 ≤ s.ebl.toNat) (hhi : s.ebl.toNat ≤ 8 * P.recBytes) :
    validateWith P s = .next (checkCrc s) :=
  validateWith_of_crcInRange hl ((isComplete_iff s).mpr hc)
    ((crcInRange_iff P s).mpr ⟨by omega, by omega⟩)

theorem validateWith_of_outOfRange {P : Params} {s : State} (hl : validateLegal s.seq = true)
    (hc : s.ebl.toNat % 128 = 0) (hrange : s.ebl.toNat = 0 ∨ 8 * P.recBytes < s.ebl.toNat) :
    validateWith P s = .fault .recordOutOfRange := by
  have hout : ¬ crcInRange P s = true := by
    rw [crcInRange_iff]
    omega
  rw [validateWith, if_pos hl, if_pos ((isComplete_iff s).mpr hc), if_neg hout]

theorem checkCrc_of_match {s : State} (h : crcMatches s = true) :
    checkCrc s = finishCmd .validOk { s with vres := .valid, crc := recordCrc s } :=
  if_pos h

theorem checkCrc_of_mismatch {s : State} (h : crcMatches s = false) :
    checkCrc s = finishCmd .validFail { s with vres := .crcMismatch, crc := recordCrc s } :=
  if_neg (by simp [h])

/-- A 16-bit value is two bytes, the high one first, exactly when these are its bytes. -/
theorem append_eq_iff (hi lo : Byte) (h : Half) : hi ++ lo = h ↔ lowByte h = lo ∧ highByte h = hi := by
  constructor
  · rintro rfl
    exact ⟨lowByte_append hi lo, highByte_append hi lo⟩
  · rintro ⟨rfl, rfl⟩
    exact highByte_append_lowByte h

/-- The comparison of 42_validator.md R99 on the stored CRC read as one value (42_validator.md R103). -/
theorem crcMatches_iff_append (s : State) :
    crcMatches s = true ↔ storedCrcHigh s ++ storedCrcLow s = recordCrc s :=
  (crcMatches_iff s).trans (append_eq_iff _ _ _).symm

theorem checkCrc_vres_valid_iff (s : State) : (checkCrc s).vres = .valid ↔ crcMatches s = true := by
  rcases checkCrc_cases s with ⟨hm, h⟩ | ⟨hm, h⟩ <;> simp [h, hm]

theorem checkCrc_vres_crcMismatch_iff (s : State) :
    (checkCrc s).vres = .crcMismatch ↔ ¬ crcMatches s = true := by
  rcases checkCrc_cases s with ⟨hm, h⟩ | ⟨hm, h⟩ <;> simp [h, hm]

theorem checkCrc_vres_ne_incomplete (s : State) : (checkCrc s).vres ≠ .incomplete := by
  rcases checkCrc_cases s with ⟨-, h⟩ | ⟨-, h⟩ <;> simp [h]

/-! VALIDATE twice (40_control.md R86): it reads REC and EBL alone, which it leaves. -/

theorem checkCrc_frame (s : State) : checkCrc s = { s with
    vres := (checkCrc s).vres, crc := recordCrc s, seq := (checkCrc s).seq, cmdRes := .ok } := by
  rcases checkCrc_cases s with ⟨-, h⟩ | ⟨-, h⟩ <;> rw [h] <;> rfl

theorem validateLegal_checkCrc (s : State) : validateLegal (checkCrc s).seq = true := by
  rcases checkCrc_cases s with ⟨-, h⟩ | ⟨-, h⟩ <;> rw [h] <;> rfl

theorem isComplete_checkCrc (s : State) : isComplete (checkCrc s) = isComplete s := by
  rw [checkCrc_frame]
  rfl

theorem crcInRange_checkCrc (P : Params) (s : State) : crcInRange P (checkCrc s) = crcInRange P s := by
  rw [checkCrc_frame]
  rfl

theorem crcMatches_checkCrc (s : State) : crcMatches (checkCrc s) = crcMatches s := by
  rw [checkCrc_frame]
  rfl

theorem checkCrc_checkCrc (s : State) : checkCrc (checkCrc s) = checkCrc s := by
  have hsame := crcMatches_checkCrc s
  cases hm : crcMatches s with
  | true =>
    rw [checkCrc_of_match (hsame.trans hm), checkCrc_of_match hm]
    rfl
  | false =>
    rw [checkCrc_of_mismatch (hsame.trans hm), checkCrc_of_mismatch hm]
    rfl

theorem validateWith_validateWith {P : Params} {s t : State} (hl : validateLegal s.seq = true)
    (h : validateWith P s = .next t) : validateWith P t = .next t := by
  rcases validateWith_cases P s with ⟨hl', -⟩ | ⟨-, hc, hv⟩ | ⟨-, hc, hrange, hv⟩ | ⟨-, -, -, hv⟩
  · simp [hl] at hl'
  · cases hv.symm.trans h
    exact validateWith_of_incomplete (s := markIncomplete s) rfl (of_decide_eq_false hc) P
  · cases hv.symm.trans h
    rw [validateWith_of_crcInRange (validateLegal_checkCrc s) ((isComplete_checkCrc s).trans hc)
      ((crcInRange_checkCrc P s).trans hrange), checkCrc_checkCrc]
  · cases hv.symm.trans h

/-! The byte-wise update (42_validator.md R104): the bit loop is linear over XOR, so it acts on the low byte of
the register, where it is a table of 256 entries, and shifts the high byte down. -/

/-- The polynomial, when the bit shifted out is set. -/
def crcFeedback (b : Bool) : Half := if b then 0x8408 else 0

theorem crcFeedback_xor (a b : Bool) : crcFeedback (a ^^ b) = crcFeedback a ^^^ crcFeedback b := by
  cases a <;> cases b <;> rfl

theorem crcBit_eq (c : Half) : crcBit c = (c >>> 1) ^^^ crcFeedback (c.getLsbD 0) := by
  unfold crcBit crcFeedback
  cases c.getLsbD 0 <;> simp

theorem crcBit_xor (x y : Half) : crcBit (x ^^^ y) = crcBit x ^^^ crcBit y := by
  simp only [crcBit_eq, BitVec.getLsbD_xor, BitVec.ushiftRight_xor_distrib, crcFeedback_xor]
  ac_rfl

theorem crcBits_xor (x y : Half) (n : Nat) : crcBits (x ^^^ y) n = crcBits x n ^^^ crcBits y n := by
  induction n generalizing x y with
  | zero => rfl
  | succ n ih => rw [crcBits, crcBit_xor, ih, crcBits, crcBits]

/-- The high byte is shifted down: no bit of it is shifted out in eight turns. -/
theorem crcBits_highByte : ∀ h : Byte, crcBits (h.zeroExtend 16 <<< 8) 8 = h.zeroExtend 16 := by
  decide +kernel

/-- The table of the low byte. -/
theorem crcBits_lowByte : ∀ b : Byte, crcBits (b.zeroExtend 16) 8 =
    (let t := b ^^^ (b <<< 4)
     (t.zeroExtend 16 <<< 8) ^^^ (t.zeroExtend 16 <<< 3) ^^^ (t.zeroExtend 16 >>> 4)) := by
  decide +kernel

theorem xor_zeroExtend_eq (c : Half) (b : Byte) : c ^^^ b.zeroExtend 16 =
    ((highByte c).zeroExtend 16 <<< 8) ^^^ (b ^^^ lowByte c).zeroExtend 16 := by
  ext i hi
  rcases Nat.lt_or_ge i 8 with h | h
  · simp [highByte, lowByte, h, Bool.xor_comm, BitVec.getLsbD_eq_getElem hi]
  · simp [highByte, lowByte, Nat.not_lt.mpr h, show i - 8 < 8 by omega, BitVec.getLsbD_eq_getElem hi,
      show 8 + (i - 8) = i by omega]

theorem ushiftRight_eq_highByte (c : Half) : c >>> 8 = (highByte c).zeroExtend 16 := by
  ext i hi
  suffices c.getLsbD (8 + i) = true → i < 8 by simpa [highByte] using this
  intro h
  have := BitVec.lt_of_getLsbD h
  omega

theorem crcByteWise_eq_crcByte (c : Half) (b : Byte) : crcByteWise c b = crcByte c b := by
  rw [crcByte, xor_zeroExtend_eq, crcBits_xor, crcBits_highByte, crcBits_lowByte, crcByteWise,
    ushiftRight_eq_highByte]
  simp only [BitVec.xor_assoc]

/-! The statements. -/

/-- Settles O25: the state of `checkCrc`, with the comparison written out. -/
theorem validateComparesTheStoredCrc : Obligations.ValidateComparesTheStoredCrc := by
  intro s hq hc hlo hhi
  refine ⟨recordCrc s, rfl,
    (validateWith_of_complete ((validateLegal_iff _).mpr hq) hc (by omega) hhi).trans ?_⟩
  have hcond := crcMatches_iff s
  cases hm : crcMatches s with
  | true =>
    rw [checkCrc_of_match hm]
    exact congrArg Host.Outcome.next (if_pos (hcond.mp hm)).symm
  | false =>
    rw [checkCrc_of_mismatch hm]
    exact congrArg Host.Outcome.next (if_neg fun h => by simp [hcond.mpr h] at hm).symm

/-- Settles O26: an incomplete record is marked so, and a complete one is Valid exactly when the stored CRC is the
computed one. -/
theorem validateCharacterisation : Obligations.ValidateCharacterisation := by
  intro s hq hlo hhi
  have hl := (validateLegal_iff _).mpr hq
  by_cases hc : s.ebl.toNat % 128 = 0
  · refine ⟨_, validateWith_of_complete hl hc hlo hhi,
      iff_of_false (checkCrc_vres_ne_incomplete s) (not_not_intro hc), fun _ => ⟨?_, ?_⟩⟩
    · exact (checkCrc_vres_valid_iff s).trans (crcMatches_iff_append s)
    · exact (checkCrc_vres_crcMismatch_iff s).trans (not_congr (crcMatches_iff_append s))
  · exact ⟨_, validateWith_of_incomplete hl hc _, iff_of_true rfl hc, fun h => absurd h hc⟩

/-- Settles O28: VALIDATE leaves what it reads. -/
theorem repeatedValidateGivesTheSameState : Obligations.RepeatedValidateGivesTheSameState := fun _ _ hq =>
  validateWith_validateWith ((validateLegal_iff _).mpr hq)

/-- Settles O29: the length is complete and its CRC bytes are not in REC. -/
theorem validateStopsOnALengthNoRunHolds : Obligations.ValidateStopsOnALengthNoRunHolds := fun _ hq =>
  validateWith_of_outOfRange ((validateLegal_iff _).mpr hq)

/-- Settles O30: the computed low byte is REC[n-1], which differs from the REC[n-2] it is compared with. -/
theorem swappedCrcBytesMismatch : Obligations.SwappedCrcBytesMismatch := by
  intro s hq hc hlo hhi hne hswap
  have hm : crcMatches s = false := by
    rw [← Bool.not_eq_true, crcMatches_iff]
    rintro ⟨hlow, -⟩
    obtain ⟨hlow', -⟩ := (append_eq_iff _ _ (recordCrc s)).mp hswap
    exact hne (hlow.symm.trans hlow')
  have ht := checkCrc_of_mismatch hm
  exact ⟨_, validateWith_of_complete ((validateLegal_iff _).mpr hq) hc (by omega) hhi,
    congrArg (·.vres) ht, congrArg (·.seq) ht⟩

/-- Settles O31: three evaluations of the bit loop. -/
theorem crcCheckValues : Obligations.CrcCheckValues := by
  unfold Obligations.CrcCheckValues
  decide +kernel

/-- Settles O32: both strings are folds of the update of one byte. -/
theorem byteWiseCrcEqualsTheBitLoop : Obligations.ByteWiseCrcEqualsTheBitLoop := by
  have hbyte : crcByteWise = crcByte := funext fun c => funext (crcByteWise_eq_crcByte c)
  exact ⟨crcByteWise_eq_crcByte, fun bytes => by rw [crcAByteWise, hbyte, crcA]⟩

end Sys2Proof.Machine
end

section
/-! The decoder's statements by format (43_decoder.md R107 to R121): the arm each format byte selects, the rows of the
dispatch, the in-place writes, the renderings, and what DECODE does not depend on. -/

namespace Sys2Proof.Machine

/-! The arm of each format (43_decoder.md R107). -/

theorem format_cases (f : Byte) : f = 0 ∨ (1 ≤ f.toNat ∧ f.toNat ≤ 4) ∨ f = 5 ∨ 6 ≤ f.toNat := by
  bv_omega

theorem dispatchFormat_of_reserved {f : Byte} (hf : f = 0) (P : Params) (s : State) :
    dispatchFormat P f s = reservedArm s :=
  if_pos hf

theorem dispatchFormat_of_uri {f : Byte} (hlo : 1 ≤ f.toNat) (hhi : f.toNat ≤ 4) (P : Params) (s : State) :
    dispatchFormat P f s = uriArm P s :=
  (if_neg (by bv_omega)).trans (if_pos hhi)

theorem dispatchFormat_of_epc {f : Byte} (hf : f = 5) (P : Params) (s : State) :
    dispatchFormat P f s = epcArm s := by
  subst hf
  rfl

theorem dispatchFormat_of_unknown {f : Byte} (hf : 6 ≤ f.toNat) (P : Params) (s : State) :
    dispatchFormat P f s = unknownArm s := by
  rw [dispatchFormat, if_neg (by bv_omega), if_neg (by omega), if_neg (by bv_omega)]

theorem decodeEffect_of_reserved {s : State} (hf : formatByte s = 0) (P : Params) :
    decodeEffect P s = finishCmd .decoded (reservedArm (commonFields P s)) := by
  rw [decodeEffect, dispatchFormat_of_reserved hf]

theorem decodeEffect_of_uri {s : State} (hlo : 1 ≤ (formatByte s).toNat) (hhi : (formatByte s).toNat ≤ 4)
    (P : Params) : decodeEffect P s = finishCmd .decoded (uriArm P (commonFields P s)) := by
  rw [decodeEffect, dispatchFormat_of_uri hlo hhi]

theorem decodeEffect_of_epc {s : State} (hf : formatByte s = 5) (P : Params) :
    decodeEffect P s = finishCmd .decoded (epcArm (commonFields P s)) := by
  rw [decodeEffect, dispatchFormat_of_epc hf]

theorem decodeEffect_of_unknown {s : State} (hf : 6 ≤ (formatByte s).toNat) (P : Params) :
    decodeEffect P s = finishCmd .decoded (unknownArm (commonFields P s)) := by
  rw [decodeEffect, dispatchFormat_of_unknown hf]

theorem exec_decode_of_validOk {s : State} (h : s.seq = .validOk) :
    exec .decode s = .next (decodeEffect Config.params s) :=
  decodeWith_of_validOk h Config.params

/-! The rows of format DFF (log 9). -/

/-- The row a format byte decodes to is the arm the dispatch takes for it. -/
theorem exec_decodeDff (f : Byte) (s : State) :
    exec (decodeDff f) s = .next (dispatchFormat Config.params f s) := by
  rcases format_cases f with rfl | ⟨hlo, hhi⟩ | rfl | hf
  · rfl
  · have hrows : f = 1 ∨ f = 2 ∨ f = 3 ∨ f = 4 := by bv_omega
    rcases hrows with rfl | rfl | rfl | rfl <;> rfl
  · rfl
  · rw [decodeDff_of_unknown hf, dispatchFormat_of_unknown hf]
    rfl

theorem exec_uriRow {i : Instr}
    (hi : i ∈ ([.dffUriHttpWww, .dffUriHttpsWww, .dffUriHttp, .dffUriHttps] : List Instr)) (s : State) :
    exec i s = .next (uriArm Config.params s) := by
  simp only [List.mem_cons, List.not_mem_nil, or_false] at hi
  rcases hi with rfl | rfl | rfl | rfl <;> rfl

theorem toNat_uriArm_dvTerm (P : Params) (s : State) : (uriArm P s).dvTerm.toNat = uriPos s.record :=
  toNat_uriPos s.record

theorem toNat_uriArm_dvLen (P : Params) (s : State) : (uriArm P s).dvLen.toNat = uriPos s.record - 2 :=
  toNat_uriLength s.record

/-! The payload and the renderings (43_decoder.md R113 to R118). -/

/-- The in-place writes lie behind the payload. -/
theorem slice_uriRecord (P : Params) (m : Memory) :
    Memory.slice (uriRecord P m) 2 (uriPos m - 2) = Memory.slice m 2 (uriPos m - 2) :=
  Memory.slice_congr fun _ hlo hhi => read_uriRecord_other P m (by omega) (by omega)

/-- The payload of the view is read from the record as it was before DECODE. -/
theorem viewPayload_decodeEffect (P : Params) (s : State) :
    viewPayload (decodeEffect P s) = Memory.slice s.record 2 (decodeEffect P s).dvLen.toNat := by
  rcases format_cases (formatByte s) with hf | ⟨hlo, hhi⟩ | hf | hf
  · rw [decodeEffect_of_reserved hf]
    rfl
  · rw [decodeEffect_of_uri hlo hhi]
    have hlen := toNat_uriArm_dvLen P (commonFields P s)
    rw [viewPayload, finishCmd_dvLen, hlen]
    exact slice_uriRecord P s.record
  · rw [decodeEffect_of_epc hf]
    rfl
  · rw [decodeEffect_of_unknown hf]
    rfl

theorem render_decodeEffect_of_uri {s : State} {chars : List Byte} (hlo : 1 ≤ (formatByte s).toNat)
    (hhi : (formatByte s).toNat ≤ 4) (hp : uriPrefix (formatByte s) = some chars) (P : Params) :
    render (decodeEffect P s) = .success (chars ++ Memory.slice s.record 2 (uriPos s.record - 2)) := by
  have hlen : (decodeEffect P s).dvLen.toNat = uriPos s.record - 2 := by
    rw [decodeEffect_of_uri hlo hhi]
    exact toNat_uriArm_dvLen P (commonFields P s)
  have hkind : (decodeEffect P s).dvKind = .uri := by
    rw [decodeEffect_of_uri hlo hhi]
    rfl
  have hfmt : (decodeEffect P s).dvFmt = formatByte s := by rw [decodeEffect_eq]
  rw [render_of_uri hkind ((congrArg uriPrefix hfmt).trans hp), viewPayload_decodeEffect, hlen]

theorem render_decodeEffect_of_epc {s : State} (hf : formatByte s = 5) (P : Params) :
    render (decodeEffect P s) = .success (hexString (Memory.slice s.record 2 12)) := by
  rw [decodeEffect_of_epc hf]
  rfl

theorem render_decodeEffect_of_unknown {s : State} (hf : 6 ≤ (formatByte s).toNat) (P : Params) :
    render (decodeEffect P s) =
      .success (hexString (Memory.slice s.record 2 (BitVec.ofNat 8 (recordBytes s) - 4).toNat)) := by
  rw [decodeEffect_of_unknown hf]
  rfl

@[simp] theorem length_hexString (bytes : List Byte) : (hexString bytes).length = 2 * bytes.length := by
  simp [hexString, hexByte, List.length_flatMap, mul_comm]

/-- The number of payload bytes of an unknown format, for a complete record inside REC (43_decoder.md R116). -/
theorem toNat_recordBytes_sub_four {s : State} (hlo : 128 ≤ s.ebl.toNat)
    (hhi : s.ebl.toNat ≤ 8 * Config.params.recBytes) :
    (BitVec.ofNat 8 (recordBytes s) - 4).toNat = s.ebl.toNat / 8 - 4 := by
  have hsize : Config.params.recBytes = 64 := rfl
  exact toNat_unknownLength (n := s.ebl.toNat / 8) (by omega) (by omega)

/-! What DECODE does not depend on (43_decoder.md R112, R117). -/

/-- Of the parameters, P_URI_INPLACE and P_MFR_TABLE alone enter DECODE: the one decides REC, the other MFR_KNOWN. -/
theorem decodeEffect_params (P Q : Params) (s : State) :
    decodeEffect Q s = { decodeEffect P s with
      record := (decodeEffect Q s).record, mfrKnown := (decodeEffect Q s).mfrKnown } := by
  rcases format_cases (formatByte s) with hf | ⟨hlo, hhi⟩ | hf | hf
  · simp only [decodeEffect_of_reserved hf]
    rfl
  · simp only [decodeEffect_of_uri hlo hhi]
    rfl
  · simp only [decodeEffect_of_epc hf]
    rfl
  · simp only [decodeEffect_of_unknown hf]
    rfl

theorem decodeEffect_mfrKnown (P : Params) (s : State) :
    (decodeEffect P s).mfrKnown = mfrLookup P (manufacturerByte s) := by
  rw [decodeEffect_eq]

theorem decodeEffect_record_congr {P Q : Params} (h : Q.uriInplace = P.uriInplace) (s : State) :
    (decodeEffect Q s).record = (decodeEffect P s).record := by
  have huri : uriRecord Q s.record = uriRecord P s.record := by rw [uriRecord, uriRecord, h]
  rcases format_cases (formatByte s) with hf | ⟨hlo, hhi⟩ | hf | hf
  · rw [decodeEffect_of_reserved hf, decodeEffect_of_reserved hf]
    rfl
  · rw [decodeEffect_of_uri hlo hhi, decodeEffect_of_uri hlo hhi]
    exact huri
  · rw [decodeEffect_of_epc hf, decodeEffect_of_epc hf]
    rfl
  · rw [decodeEffect_of_unknown hf, decodeEffect_of_unknown hf]
    rfl

theorem decodeEffect_of_mfrTable_eq (P Q : Params) (s : State) (h : Q.mfrTable = P.mfrTable) :
    decodeEffect Q s = { decodeEffect P s with record := (decodeEffect Q s).record } := by
  have hknown : (decodeEffect Q s).mfrKnown = (decodeEffect P s).mfrKnown := by
    rw [decodeEffect_mfrKnown, decodeEffect_mfrKnown, mfrLookup, mfrLookup, h]
  exact (decodeEffect_params P Q s).trans (by rw [hknown])

theorem decodeEffect_of_uriInplace_eq (P Q : Params) (s : State) (h : Q.uriInplace = P.uriInplace) :
    decodeEffect Q s = { decodeEffect P s with mfrKnown := (decodeEffect Q s).mfrKnown } :=
  (decodeEffect_params P Q s).trans (by rw [decodeEffect_record_congr h])

theorem decodeEffect_record_of_not_uriInplace {P : Params} (h : P.uriInplace = false) (s : State) :
    (decodeEffect P s).record = s.record := by
  rcases decodeEffect_record_cases P s with hr | hr
  · exact hr
  · exact hr.trans (if_neg (by simp [h]))

theorem viewPayload_decodeEffect_params (P Q : Params) (s : State) :
    viewPayload (decodeEffect Q s) = viewPayload (decodeEffect P s) := by
  have hlen : (decodeEffect Q s).dvLen = (decodeEffect P s).dvLen :=
    congrArg (·.dvLen) (decodeEffect_params P Q s)
  rw [viewPayload_decodeEffect, viewPayload_decodeEffect, hlen]

theorem render_decodeEffect_params (P Q : Params) (s : State) :
    render (decodeEffect Q s) = render (decodeEffect P s) := by
  rcases format_cases (formatByte s) with hf | ⟨hlo, hhi⟩ | hf | hf
  · rw [decodeEffect_of_reserved hf, decodeEffect_of_reserved hf]
    rfl
  · obtain ⟨chars, hp⟩ := exists_uriPrefix hlo hhi
    rw [render_decodeEffect_of_uri hlo hhi hp, render_decodeEffect_of_uri hlo hhi hp]
  · rw [render_decodeEffect_of_epc hf, render_decodeEffect_of_epc hf]
  · rw [render_decodeEffect_of_unknown hf, render_decodeEffect_of_unknown hf]

theorem mfrLookup_iff (P : Params) (id : Byte) : mfrLookup P id = true ↔ id ∈ P.mfrTable :=
  List.contains_iff_mem

/-! The statements. -/

/-- Settles O34: one clause for each arm. -/
theorem decodeKindFollowsTheFormatByte : Obligations.DecodeKindFollowsTheFormatByte := by
  intro s hs hmin hmax
  obtain ⟨hpos2, hpos14, -⟩ := uriPos_spec s.record
  refine ⟨_, exec_decode_of_validOk hs, fun hf => ?_, fun hlo hhi => ?_, fun hf => ?_, fun hf => ?_⟩
  · rw [decodeEffect_of_reserved hf]
    exact ⟨rfl, rfl, rfl⟩
  · have hterm := toNat_uriArm_dvTerm Config.params (commonFields Config.params s)
    have hlen := toNat_uriArm_dvLen Config.params (commonFields Config.params s)
    rw [decodeEffect_of_uri hlo hhi, finishCmd_dvTerm, finishCmd_dvLen, hterm, hlen]
    exact ⟨rfl, hpos2, hpos14, rfl⟩
  · rw [decodeEffect_of_epc hf]
    exact ⟨rfl, rfl, rfl⟩
  · rw [decodeEffect_of_unknown hf]
    exact ⟨rfl, toNat_recordBytes_sub_four hmin hmax, rfl⟩

/-- Settles O35: the row REC[1] decodes to is the arm of the dispatch, and `finishCmd` the end. -/
theorem decodeRunsTheRowOfItsFormat : Obligations.DecodeRunsTheRowOfItsFormat := fun s hs =>
  ⟨_, exec_decodeDff (formatByte s) (commonFields Config.params s), exec_decode_of_validOk hs⟩

/-- Settles O36: the three arms are `setView` with these arguments. -/
theorem reservedEpcAndUnknownRowsSetTheView : Obligations.ReservedEpcAndUnknownRowsSetTheView :=
  fun _ => ⟨rfl, rfl, fun _ => rfl⟩

/-- Settles O37: DV_TERM is the offset the scan answers. -/
theorem uriRowsFindTheFirstTerminator : Obligations.UriRowsFindTheFirstTerminator := by
  intro i hi s
  obtain ⟨hpos2, hpos14, hfirst, hfound⟩ := uriPos_spec s.record
  refine ⟨_, exec_uriRow hi s, rfl, ?_⟩
  rw [toNat_uriArm_dvTerm, toNat_uriArm_dvLen]
  exact ⟨hpos2, hpos14, rfl, hfirst, hfound⟩

/-- Settles O38: P_URI_INPLACE is true at the reference values, so the two writes are made. -/
theorem uriRowsWriteTwoBytesInPlace : Obligations.UriRowsWriteTwoBytesInPlace := by
  intro i hi s
  refine ⟨_, exec_uriRow hi s, toNat_uriArm_dvTerm _ s, ?_, ?_,
    fun _ => read_uriRecord_other Config.params s.record⟩
  · exact (read_uriRecord Config.params s.record _).trans (if_pos ⟨rfl, rfl⟩)
  · exact (read_uriRecord Config.params s.record _).trans
      ((if_neg fun h => Nat.succ_ne_self _ h.2).trans (if_pos ⟨rfl, rfl⟩))

/-- Settles O39: the view, the payload and the rendering of DECODE are the same for any two parameter sets with one
table. -/
theorem inPlaceParameterTouchesOnlyRec : Obligations.InPlaceParameterTouchesOnlyRec := by
  intro P s hs
  refine ⟨_, _, decodeWith_of_validOk hs _, decodeWith_of_validOk hs _,
    decodeEffect_record_of_not_uriInplace rfl s, decodeEffect_of_mfrTable_eq _ _ s rfl,
    viewPayload_decodeEffect_params _ _ s, render_decodeEffect_params _ _ s⟩

/-- Settles O40: the characters of the format's row, and the payload the scan finds. -/
theorem uriRendering : Obligations.UriRendering := by
  intro s f chars hs hf hmem
  have hrow : uriPrefix f = some chars ∧ 1 ≤ f.toNat ∧ f.toNat ≤ 4 := by
    simp only [List.mem_cons, Prod.mk.injEq, List.not_mem_nil, or_false] at hmem
    rcases hmem with ⟨rfl, rfl⟩ | ⟨rfl, rfl⟩ | ⟨rfl, rfl⟩ | ⟨rfl, rfl⟩ <;> exact ⟨rfl, by decide, by decide⟩
  subst hf
  obtain ⟨hp, hlo, hhi⟩ := hrow
  have hterm : (decodeEffect Config.params s).dvTerm.toNat = uriPos s.record := by
    rw [decodeEffect_of_uri hlo hhi]
    exact toNat_uriArm_dvTerm Config.params (commonFields Config.params s)
  refine ⟨_, exec_decode_of_validOk hs, ?_⟩
  rw [hterm]
  exact render_decodeEffect_of_uri hlo hhi hp Config.params

/-- Settles O41: two characters a byte, of twelve bytes or of all but the first two and the last two. -/
theorem hexRenderings : Obligations.HexRenderings := by
  intro s hs hmin hmax
  refine ⟨_, exec_decode_of_validOk hs, fun hf => ⟨render_decodeEffect_of_epc hf _, by simp⟩, fun hf => ?_⟩
  rw [render_decodeEffect_of_unknown hf, toNat_recordBytes_sub_four hmin hmax]

/-- Settles O43: the digits by their sixteen values. -/
theorem hexDigitsOfAByte : Obligations.HexDigitsOfAByte :=
  ⟨rfl, fun _ _ => rfl, fun _ => rfl, rfl, rfl, rfl, by decide⟩

/-- Settles O44: the table enters DECODE through MFR_KNOWN alone. -/
theorem manufacturerLookupIsInformative : Obligations.ManufacturerLookupIsInformative := by
  refine ⟨fun P table s hs => ⟨_, _, decodeWith_of_validOk hs _, decodeWith_of_validOk hs _, ?_, ?_⟩,
    fun id => ?_, fun s => rfl⟩
  · rw [decodeEffect_mfrKnown]
    exact mfrLookup_iff _ _
  · exact decodeEffect_of_uriInplace_eq P _ s rfl
  · exact (mfrLookup_iff _ _).trans List.mem_singleton

/-- Settles O45: DECODE ends in DECODED, where neither is legal. -/
theorem nothingRunsAgainAfterDecode : Obligations.NothingRunsAgainAfterDecode := by
  intro s t hs h
  cases (exec_decode_of_validOk hs).symm.trans h
  have hq : (decodeEffect Config.params s).seq = .decoded := by rw [decodeEffect_eq]
  have hne : (decodeEffect Config.params s).seq ≠ .validOk := by simp [hq]
  have hl : validateLegal (decodeEffect Config.params s).seq = false := congrArg validateLegal hq
  exact ⟨decodeWith_of_ne_validOk hne Config.params, validateWith_of_illegal hl Config.params⟩

end Sys2Proof.Machine
end

section
/-! RUN's statements (40_control.md R82 to R84) and what the commands after REFRAME do not read
(70_reset_and_hazards.md R139, R142). -/

namespace Sys2Proof.Machine

/-! What VALIDATE and DECODE neither read nor, when they are legal, write. -/

/-- `s` with the input latches, ERR_SEEN and the host's own fields of `i`. -/
def withInputsOf (i s : State) : State :=
  { s with
    raw := i.raw
    par := i.par
    rawNbits := i.rawNbits
    errSeen := i.errSeen
    pending := i.pending
    reads := i.reads
    draws := i.draws }

theorem checkCrc_withInputsOf (i s : State) : checkCrc (withInputsOf i s) = withInputsOf i (checkCrc s) := by
  have hsame : crcMatches (withInputsOf i s) = crcMatches s := rfl
  cases hm : crcMatches s with
  | true =>
    rw [checkCrc_of_match hm, checkCrc_of_match (hsame.trans hm)]
    rfl
  | false =>
    rw [checkCrc_of_mismatch hm, checkCrc_of_mismatch (hsame.trans hm)]
    rfl

theorem validateWith_withInputsOf {P : Params} {s t : State} (hl : validateLegal s.seq = true)
    (h : validateWith P s = .next t) (i : State) :
    validateWith P (withInputsOf i s) = .next (withInputsOf i t) := by
  rcases validateWith_cases P s with ⟨hl', -⟩ | ⟨-, hc, hv⟩ | ⟨-, hc, hrange, hv⟩ | ⟨-, -, -, hv⟩
  · simp [hl] at hl'
  · cases hv.symm.trans h
    exact validateWith_of_incomplete (s := withInputsOf i s) hl (of_decide_eq_false hc) P
  · cases hv.symm.trans h
    rw [← checkCrc_withInputsOf]
    exact validateWith_of_crcInRange (s := withInputsOf i s) hl hc hrange
  · cases hv.symm.trans h

theorem decodeEffect_withInputsOf (P : Params) (i s : State) :
    decodeEffect P (withInputsOf i s) = withInputsOf i (decodeEffect P s) := by
  rcases format_cases (formatByte s) with hf | ⟨hlo, hhi⟩ | hf | hf
  · rw [decodeEffect_of_reserved hf, decodeEffect_of_reserved (s := withInputsOf i s) hf]
    rfl
  · rw [decodeEffect_of_uri hlo hhi, decodeEffect_of_uri (s := withInputsOf i s) hlo hhi]
    rfl
  · rw [decodeEffect_of_epc hf, decodeEffect_of_epc (s := withInputsOf i s) hf]
    rfl
  · rw [decodeEffect_of_unknown hf, decodeEffect_of_unknown (s := withInputsOf i s) hf]
    rfl

/-! The input latches and the waiting events, one command at a time (70_reset_and_hazards.md R142). -/

theorem validateWith_set_latches {P : Params} {s t : State} (h : validateWith P s = .next t)
    (raw par : Memory) (n : Half) :
    validateWith P { s with raw := raw, par := par, rawNbits := n }
      = .next { t with raw := raw, par := par, rawNbits := n } := by
  cases hl : validateLegal s.seq with
  | false =>
    cases (validateWith_of_illegal hl P).symm.trans h
    exact validateWith_of_illegal (s := { s with raw := raw, par := par, rawNbits := n }) hl P
  | true =>
    have hi := validateWith_withInputsOf hl h { s with raw := raw, par := par, rawNbits := n }
    rw [validateWith_frame hl h] at hi ⊢
    exact hi

theorem decodeWith_set_latches {P : Params} {s t : State} (h : decodeWith P s = .next t)
    (raw par : Memory) (n : Half) :
    decodeWith P { s with raw := raw, par := par, rawNbits := n }
      = .next { t with raw := raw, par := par, rawNbits := n } := by
  rcases decodeWith_cases P s with ⟨hq, hd⟩ | ⟨hq, hd⟩ <;> cases hd.symm.trans h
  · have hi := decodeEffect_withInputsOf P { s with raw := raw, par := par, rawNbits := n } s
    refine (decodeWith_of_validOk (s := { s with raw := raw, par := par, rawNbits := n }) hq P).trans
      (congrArg Host.Outcome.next (hi.trans ?_))
    rw [decodeEffect_eq]
    rfl
  · exact decodeWith_of_ne_validOk (s := { s with raw := raw, par := par, rawNbits := n }) hq P

theorem validateWith_set_pending {P : Params} {s t : State} (hl : validateLegal s.seq = true)
    (h : validateWith P s = .next t) (pending : List BusEvent) :
    validateWith P { s with pending := pending } = .next { t with pending := pending } := by
  have hi := validateWith_withInputsOf hl h { s with pending := pending }
  rw [validateWith_frame hl h] at hi ⊢
  exact hi

/-! RUN within the capacity (40_control.md R82). -/

/-- RUN is a VALIDATE of the reframed record, with a DECODE after it when that is Valid. -/
theorem runWith_of_le {P : Params} {s : State} (hP : P.Ok) (hcap : bitCount s ≤ P.rawCapBits) :
    ∃ u, validateWith P (reframeEffect s) = .next u ∧
      runWith P s = .next (if u.vres = .valid then decodeEffect P u else u) := by
  obtain ⟨u, hu⟩ := validateWith_reframeEffect hP hcap
  refine ⟨u, hu, ?_⟩
  rcases runWith_cases P s with ⟨hlong, -⟩ | ⟨-, hr⟩
  · omega
  · rw [hr, hu, andThen]
    split_ifs with hvalid
    · exact decodeWith_of_validOk (validateWith_seq_of_valid rfl hu hvalid) P
    · rfl

/-- The two ends of a RUN within the capacity: decoded with a view, or rejected without one. -/
theorem runWith_outcome {P : Params} {s t : State} (hP : P.Ok) (hcap : bitCount s ≤ P.rawCapBits)
    (h : runWith P s = .next t) :
    (t.vres = .valid ∧ t.seq = .decoded ∧ t.dvKind ≠ .none) ∨
      ((t.vres = .incomplete ∨ t.vres = .crcMismatch) ∧ t.seq = .validFail ∧ t.dvKind = .none) := by
  obtain ⟨u, hu, hr⟩ := runWith_of_le hP hcap
  have hview : u.dvKind = .none := by
    rw [(validateWith_next rfl hu).1]
    rfl
  cases hr.symm.trans h
  rcases (validateWith_next rfl hu).2 with ⟨hv, -⟩ | ⟨hv, hq, -⟩ | ⟨hv, -, hq, -⟩
  · rw [if_pos hv]
    have hkind := decodeEffect_dvKind_ne_none P u
    rw [decodeEffect_frame] at hkind ⊢
    exact .inl ⟨hv, rfl, hkind⟩
  · rw [if_neg (by simp [hv])]
    exact .inr ⟨.inr hv, hq, hview⟩
  · rw [if_neg (by simp [hv])]
    exact .inr ⟨.inl hv, hq, hview⟩

/-- A state that keeps the input latches, ERR_SEEN and the host's own fields differs in the results alone. -/
theorem eq_set_results {s t : State} (hhost : t.raw = s.raw ∧ t.par = s.par ∧ t.rawNbits = s.rawNbits ∧
      t.pending = s.pending ∧ t.reads = s.reads ∧ t.draws = s.draws) (herr : t.errSeen = s.errSeen) :
    t = { s with
      record := t.record, ebl := t.ebl, vres := t.vres, crc := t.crc, seq := t.seq, cmdRes := t.cmdRes,
      dvKind := t.dvKind, dvFmt := t.dvFmt, dvMfr := t.dvMfr, mfrKnown := t.mfrKnown,
      dvLen := t.dvLen, dvTerm := t.dvTerm } := by
  obtain ⟨hraw, hpar, hn, hpending, hreads, hdraws⟩ := hhost
  rw [← hraw, ← hpar, ← hn, ← hpending, ← hreads, ← hdraws, ← herr]

theorem runWith_host {P : Params} {s t : State} (h : runWith P s = .next t) :
    t.raw = s.raw ∧ t.par = s.par ∧ t.rawNbits = s.rawNbits ∧
    t.pending = s.pending ∧ t.reads = s.reads ∧ t.draws = s.draws :=
  execWith_host (i := .run) h

theorem runWith_ends_ok {P : Params} {s t : State} (hP : P.Ok) (hcap : bitCount s ≤ P.rawCapBits)
    (h : runWith P s = .next t) : t.cmdRes = .ok ∧ t.errSeen = s.errSeen := by
  obtain ⟨t', ht', hok⟩ := runWith_ok hP hcap
  cases ht'.symm.trans h
  rcases runWith_ends h with ⟨e, rfl⟩ | hends
  · exact absurd hok (result_ne_ok e)
  · exact hends

/-! RUN as three accesses (40_control.md R83). -/

theorem step_cmd_byte (s : State) (b : Byte) (rest : List BusEvent) :
    step { s with pending := hostWr 0x84 b :: rest } = exec (decodeCmd b) { s with pending := rest } :=
  step_command rfl

/-- A run that begins with a command goes on from the state the command answers. -/
theorem runSteps_cmd_byte {s u : State} {b : Byte} {rest : List BusEvent}
    (h : exec (decodeCmd b) { s with pending := rest } = .next u) (n : Nat) :
    runSteps (n + 1) { s with pending := hostWr 0x84 b :: rest } = runSteps n u := by
  rw [runSteps, step_cmd_byte, h, andThen]

/-- REFRAME and VALIDATE as the first two accesses of a run: neither reads what waits behind it. -/
theorem runSteps_reframe_validate {s u : State} (hcap : bitCount s ≤ Config.params.rawCapBits)
    (hu : validateWith Config.params (reframeEffect s) = .next u) (rest : List BusEvent) (n : Nat) :
    runSteps (n + 2) { s with pending := hostWr 0x84 0x01 :: hostWr 0x84 0x02 :: rest }
      = runSteps n { u with pending := rest } :=
  calc
    _ = runSteps (n + 1) { reframeEffect s with pending := hostWr 0x84 0x02 :: rest } :=
      runSteps_cmd_byte (s := s) (b := 0x01)
        (exec_reframe_of_le (s := { s with pending := hostWr 0x84 0x02 :: rest }) hcap) (n + 1)
    _ = runSteps n { u with pending := rest } :=
      runSteps_cmd_byte (s := reframeEffect s) (b := 0x02)
        (validateWith_set_pending (s := reframeEffect s) rfl hu rest) n

/-! A transaction keeps nothing of the one before (40_control.md R84). -/

theorem sameCapture_of_latches_eq {s s' : State} (hraw : s'.raw = s.raw) (hpar : s'.par = s.par)
    (hn : s'.rawNbits = s.rawNbits) : SameCapture s s' where
  rawNbits := hn
  data g _ k _ := congrArg (fun m => (Memory.read m g).getLsbD k) hraw
  parity g _ := congrArg (fun m => (Memory.read m g).getLsbD 0) hpar
  partialData k _ := congrArg (fun m => (Memory.read m (groupCount s)).getLsbD k) hraw

/-- REFRAME of one capture leaves the same results in every state. -/
theorem reframeEffect_of_latches_eq {s s' : State} (hraw : s'.raw = s.raw) (hpar : s'.par = s.par)
    (hn : s'.rawNbits = s.rawNbits) : reframeEffect s' = withInputsOf s' (reframeEffect s) := by
  have hsame := sameCapture_of_latches_eq hraw hpar hn
  rw [reframeEffect, reframeEffect, hsame.reframedRecord_eq, hsame.reframedLength_eq]
  rfl

theorem runWith_of_latches_eq {P : Params} {s s' t : State} (hP : P.Ok) (hcap : bitCount s ≤ P.rawCapBits)
    (hraw : s'.raw = s.raw) (hpar : s'.par = s.par) (hn : s'.rawNbits = s.rawNbits)
    (h : runWith P s = .next t) : runWith P s' = .next (withInputsOf s' t) := by
  obtain ⟨u, hu, hr⟩ := runWith_of_le hP hcap
  obtain ⟨u', hu', hr'⟩ := runWith_of_le (s := s') hP ((congrArg BitVec.toNat hn).trans_le hcap)
  cases hr.symm.trans h
  rw [reframeEffect_of_latches_eq hraw hpar hn] at hu'
  cases (validateWith_withInputsOf (s := reframeEffect s) rfl hu s').symm.trans hu'
  rw [hr', decodeEffect_withInputsOf, ← apply_ite (withInputsOf s')]
  rfl

/-- The host reads no field of its own, so its view is that of the other fields. -/
theorem memRead_withInputsOf {i t : State} (hraw : i.raw = t.raw) (hpar : i.par = t.par)
    (hn : i.rawNbits = t.rawNbits) (herr : i.errSeen = t.errSeen) (a : Addr) :
    memRead (withInputsOf i t) a = memRead t a := by
  rw [withInputsOf, hraw, hpar, hn, herr, memRead_eq, memRead_eq]
  cases regAt Config.params a <;> rfl

/-! The statements. -/

/-- Settles O46: the two ends of RUN, and the frame every command has. -/
theorem runCompletes : Obligations.RunCompletes := by
  intro s hcap
  obtain ⟨t, ht, hok⟩ := runWith_ok (s := s) params_ok hcap
  exact ⟨t, ht, hok, eq_set_results (runWith_host ht) (runWith_ends_ok params_ok hcap ht).2,
    runWith_outcome params_ok hcap ht⟩

/-- Settles O47: a RUN refused for its length ends as its REFRAME, and one within the capacity goes on to VALIDATE and,
from a Valid record, to DECODE; what waits behind each access enters no command. -/
theorem runEqualsTheThreeCommands : Obligations.RunEqualsTheThreeCommands := by
  intro s t rest h
  have hrun : runWith Config.params { s with pending := rest } = .next t :=
    (step_cmd_byte s 0x04 rest).symm.trans h
  rcases runWith_cases Config.params { s with pending := rest } with ⟨hlong, hr⟩ | ⟨hcap, -⟩
  · cases hr.symm.trans hrun
    exact ⟨fun _ => (step_cmd_byte s 0x01 rest).trans (reframeWith_of_lt hlong), nofun, nofun⟩
  · obtain ⟨hok, -⟩ := runWith_ends_ok params_ok hcap hrun
    obtain ⟨u, hu, hr⟩ := runWith_of_le params_ok hcap
    obtain ⟨-, -, -, (hpending : u.pending = rest), -⟩ := validateWith_host hu
    cases hr.symm.trans hrun
    have hrest (more : List BusEvent) (n : Nat) := runSteps_reframe_validate (u := u) hcap hu more n
    by_cases hvalid : u.vres = .valid
    · rw [if_pos hvalid]
      have hseq := validateWith_seq_of_valid rfl hu hvalid
      refine ⟨fun hne => absurd (decodeEffect_ok _ u).1 hne, fun _ hne => ?_, fun _ _ => ?_⟩
      · exact absurd (by rw [decodeEffect_eq]; exact hvalid) hne
      · refine (hrest (hostWr 0x84 0x03 :: rest) 1).trans ?_
        refine runSteps_cmd_byte (s := u) (b := 0x03) ?_ 0
        rw [← hpending]
        exact exec_decode_of_validOk hseq
    · rw [if_neg hvalid] at hok ⊢
      refine ⟨fun hne => absurd hok hne, fun _ _ => ?_, fun _ hvres => absurd hvres hvalid⟩
      refine (hrest rest 0).trans ?_
      rw [← hpending]
      rfl

/-- Settles O48: REFRAME writes every result anew, and the commands after it read these results alone. -/
theorem transactionForgetsThePast : Obligations.TransactionForgetsThePast := by
  intro s s' t t' hcap hraw hpar hn h h'
  cases (runWith_of_latches_eq params_ok hcap hraw hpar hn h).symm.trans h'
  obtain ⟨htraw, htpar, htn, -⟩ := runWith_host h
  have hraw' := hraw.trans htraw.symm
  have hpar' := hpar.trans htpar.symm
  have hn' := hn.trans htn.symm
  refine ⟨by rw [withInputsOf, hraw', hpar', hn'], fun herr a => ?_⟩
  exact (memRead_withInputsOf hraw' hpar' hn'
    (herr.trans (runWith_ends_ok params_ok hcap h).2.symm) a).symm

/-- Settles O49: neither VALIDATE nor DECODE reads an input latch, and a refused one writes ERR_SEEN and CMDRES
alone. -/
theorem latchesAreSampledAtReframe : Obligations.LatchesAreSampledAtReframe := fun _ _ raw par n =>
  ⟨fun h => validateWith_set_latches h raw par n, fun h => decodeWith_set_latches h raw par n⟩

end Sys2Proof.Machine
end

section
/-! The register map's statements (20_memory.md R44 to R48): what each address reads, what a write to an input latch
stores, and both for every parameter set. -/

namespace Sys2Proof.Machine

/-! Bytes on the bus (20_memory.md R47). -/

theorem zeroExtend_ofBool (b : Bool) :
    (BitVec.ofBool b).zeroExtend 8 = if b = true then (0x01 : Byte) else 0x00 := by
  cases b <;> rfl

theorem toNat_ofNat_addr {n : Nat} (h : n < 256) : (BitVec.ofNat 8 n : Addr).toNat = n := by
  rw [BitVec.toNat_ofNat, Nat.mod_eq_of_lt h]

/-- What an input latch keeps of the byte written: a parity latch its bit 0 (10_state.md R18). -/
def HostReg.stored (v : Byte) : HostReg → Byte
  | .par _ => v &&& 0x01
  | _ => v

/-- The registers a write stores in. -/
def HostReg.isLatch : HostReg → Bool
  | .raw _ | .par _ | .rawNbitsLo | .rawNbitsHi => true
  | _ => false

theorem zeroExtend_and_one : ∀ v : Byte,
    (BitVec.ofBool ((v &&& 0x01).getLsbD 0)).zeroExtend 8 = v &&& 0x01 := by
  decide +kernel

/-! One latch written: it reads back and every other register reads as before. -/

theorem readReg_set_raw (s : State) (g : Nat) (v : Byte) {r : HostReg} (h : r ≠ .raw g) :
    readReg { s with raw := Memory.write s.raw g v } r = readReg s r := by
  cases r with
  | raw g' => exact Memory.read_write_other _ _ fun hg => h (congrArg HostReg.raw hg)
  | par _ | rawNbitsLo | rawNbitsHi | cmd | status | cmdRes | vres | eblLo | eblHi | crcLo | crcHi | dvKind
  | dvFmt | dvMfr | dvFlags | dvLen | dvTerm | record _ | reserved => rfl

theorem readReg_set_par (s : State) (g : Nat) (v : Byte) {r : HostReg} (h : r ≠ .par g) :
    readReg { s with par := Memory.write s.par g v } r = readReg s r := by
  cases r with
  | par g' =>
    have hg : g' ≠ g := fun hg => h (congrArg HostReg.par hg)
    rw [readReg, readReg, parityBit, parityBit, Memory.read_write_other _ _ hg]
  | raw _ | rawNbitsLo | rawNbitsHi | cmd | status | cmdRes | vres | eblLo | eblHi | crcLo | crcHi | dvKind
  | dvFmt | dvMfr | dvFlags | dvLen | dvTerm | record _ | reserved => rfl

/-- A register that is no half of RAW_NBITS does not depend on it. -/
theorem readReg_set_rawNbits (s : State) (n : Half) {r : HostReg} (hlo : r ≠ .rawNbitsLo)
    (hhi : r ≠ .rawNbitsHi) : readReg { s with rawNbits := n } r = readReg s r := by
  cases r with
  | rawNbitsLo => exact absurd rfl hlo
  | rawNbitsHi => exact absurd rfl hhi
  | raw _ | par _ | cmd | status | cmdRes | vres | eblLo | eblHi | crcLo | crcHi | dvKind
  | dvFmt | dvMfr | dvFlags | dvLen | dvTerm | record _ | reserved => rfl

theorem writeReg_of_isLatch {r : HostReg} (h : r.isLatch = true) (M : Meanings) (v : Byte) (s : State) :
    ∃ t, writeReg M r v s = .next t ∧ t = { s with raw := t.raw, par := t.par, rawNbits := t.rawNbits } ∧
      readReg t r = r.stored v ∧ ∀ r', r' ≠ r → readReg t r' = readReg s r' := by
  cases r with
  | raw g =>
    exact ⟨_, rfl, rfl, Memory.read_write_same s.raw g v, fun _ => readReg_set_raw s g v⟩
  | par g =>
    refine ⟨_, rfl, rfl, ?_, fun _ => readReg_set_par s g _⟩
    rw [readReg, parityBit, Memory.read_write_same]
    exact zeroExtend_and_one v
  | rawNbitsLo =>
    refine ⟨_, rfl, rfl, lowByte_append _ v, fun r' hne => ?_⟩
    by_cases hhi : r' = .rawNbitsHi
    · subst hhi
      exact highByte_append _ v
    · exact readReg_set_rawNbits s _ hne hhi
  | rawNbitsHi =>
    refine ⟨_, rfl, rfl, highByte_append v _, fun r' hne => ?_⟩
    by_cases hlo : r' = .rawNbitsLo
    · subst hlo
      exact lowByte_append v _
    · exact readReg_set_rawNbits s _ hlo hne
  | cmd | status | cmdRes | vres | eblLo | eblHi | crcLo | crcHi | dvKind
  | dvFmt | dvMfr | dvFlags | dvLen | dvTerm | record _ | reserved => cases h

/-! The windows of any parameters that meet 00_scope.md R8. -/

theorem regAt_ofNat_raw {P : Params} (hP : P.Ok) {g : Nat} (hg : g < P.rawBytes) :
    regAt P (BitVec.ofNat 8 g) = .raw g := by
  obtain ⟨-, hraw, -, -⟩ := hP
  have ha := toNat_ofNat_addr (n := g) (by omega)
  rw [regAt_rawWindow (by omega), ha]

theorem regAt_ofNat_par {P : Params} (hP : P.Ok) {g : Nat} (hg : g < P.parSlots) :
    regAt P (BitVec.ofNat 8 (0x40 + g)) = .par g := by
  have ⟨_, _, hpar, _⟩ := hP
  have ha := toNat_ofNat_addr (n := 0x40 + g) (by omega)
  rw [regAt_parWindow hP (by omega) (by omega), ha, Nat.add_sub_cancel_left]

theorem regAt_ofNat_record {P : Params} (hP : P.Ok) {i : Nat} (hi : i < P.recBytes) :
    regAt P (BitVec.ofNat 8 (0xC0 + i)) = .record i := by
  have ⟨_, _, _, hrec⟩ := hP
  have ha := toNat_ofNat_addr (n := 0xC0 + i) (by omega)
  rw [regAt_recordWindow hP (by omega) (by omega), ha, Nat.add_sub_cancel_left]

theorem memReadWith_of_regAt {P : Params} {a : Addr} {r : HostReg} (h : regAt P a = r) (s : State) :
    memReadWith P s a = readReg s r :=
  congrArg (readReg s) h

theorem memWriteWith_of_regAt {P : Params} {a : Addr} {r : HostReg} (h : regAt P a = r) (M : Meanings)
    (s : State) (v : Byte) : memWriteWith P M s a v = writeReg M r v s :=
  congrArg (fun r => writeReg M r v s) h

theorem memReadWith_parSlot {P : Params} (hP : P.Ok) {g : Nat} (hg : g < P.parSlots) (s : State) :
    memReadWith P s (BitVec.ofNat 8 (0x40 + g))
      = if (Memory.read s.par g).getLsbD 0 = true then 0x01 else 0x00 :=
  (memReadWith_of_regAt (regAt_ofNat_par hP hg) s).trans (zeroExtend_ofBool _)

/-! The single-byte rows of any parameters. -/

theorem regAt_eq_reference {P : Params} (hP : P.Ok) {a : Addr} (h1 : 0x80 ≤ a.toNat) (h2 : a.toNat < 0xC0) :
    regAt P a = regAt Config.params a :=
  (regAt_control hP h1 h2).trans (regAt_control params_ok h1 h2).symm

/-- CMD stands at one address alone. -/
theorem eq_cmdAddr_of_regAt {a : Addr} (h : regAt Config.params a = .cmd) : a = 0x84 := by
  rcases regAddress_regAt a with ha | ha <;> rw [h] at ha
  · exact ha.symm
  · cases ha

/-- The meanings enter a write through CMD alone. -/
theorem writeReg_of_ne_cmd {r : HostReg} (h : r ≠ .cmd) (M M' : Meanings) (v : Byte) (s : State) :
    writeReg M r v s = writeReg M' r v s := by
  cases r with
  | cmd => exact absurd rfl h
  | raw _ | par _ | rawNbitsLo | rawNbitsHi | status | cmdRes | vres | eblLo | eblHi | crcLo | crcHi | dvKind
  | dvFmt | dvMfr | dvFlags | dvLen | dvTerm | record _ | reserved => rfl

/-! The reference map. -/

/-- The latches of the reference map. -/
theorem regAt_isLatch {a : Addr}
    (h : a.toNat ≤ 0x20 ∨ (0x40 ≤ a.toNat ∧ a.toNat ≤ 0x60) ∨ a = 0x80 ∨ a = 0x81) :
    (regAt Config.params a).isLatch = true := by
  rcases h with h | ⟨hlo, hhi⟩ | rfl | rfl
  · rw [regAt_raw h]
    rfl
  · rw [regAt_par hlo hhi]
    rfl
  · exact congrArg HostReg.isLatch regAt_rawNbitsLo
  · exact congrArg HostReg.isLatch regAt_rawNbitsHi

theorem stored_regAt {a : Addr}
    (h : a.toNat ≤ 0x20 ∨ (0x40 ≤ a.toNat ∧ a.toNat ≤ 0x60) ∨ a = 0x80 ∨ a = 0x81) (v : Byte) :
    (regAt Config.params a).stored v = if 0x40 ≤ a.toNat ∧ a.toNat ≤ 0x60 then v &&& 0x01 else v := by
  rcases h with h | ⟨hlo, hhi⟩ | rfl | rfl
  · rw [regAt_raw h, if_neg (by omega)]
    rfl
  · rw [regAt_par hlo hhi, if_pos ⟨hlo, hhi⟩]
    rfl
  · exact congrArg (HostReg.stored v) regAt_rawNbitsLo
  · exact congrArg (HostReg.stored v) regAt_rawNbitsHi

theorem memWrite_rawNbitsLo (s : State) (v : Byte) :
    memWrite s 0x80 v = .next { s with rawNbits := highByte s.rawNbits ++ v } :=
  memWriteWith_of_regAt regAt_rawNbitsLo exec s v

theorem memWrite_rawNbitsHi (s : State) (v : Byte) :
    memWrite s 0x81 v = .next { s with rawNbits := v ++ lowByte s.rawNbits } :=
  memWriteWith_of_regAt regAt_rawNbitsHi exec s v

/-! The statements. -/

/-- Settles O60: the windows by `regAt` of their own addresses, the single-byte rows by those of the reference map. -/
theorem everyParameterSetHasItsRegisterMap : Obligations.EveryParameterSetHasItsRegisterMap := by
  intro P s v hP
  refine ⟨fun g hg => ?_, fun g hg => ?_, fun i hi => ?_, fun a ha => ?_, fun a hlo hhi => ?_,
    memWriteWith_cmd hP _ s v⟩
  · have hreg := regAt_ofNat_raw hP hg
    exact ⟨memReadWith_of_regAt hreg s, memWriteWith_of_regAt hreg _ s v⟩
  · exact ⟨memReadWith_parSlot hP hg s, memWriteWith_of_regAt (regAt_ofNat_par hP hg) _ s v⟩
  · have hreg := regAt_ofNat_record hP hi
    exact ⟨memReadWith_of_regAt hreg s, memWriteWith_of_regAt hreg _ s v⟩
  · have hreg := regAt_reserved hP ha
    exact ⟨memReadWith_of_regAt hreg s, memWriteWith_of_regAt hreg _ s v⟩
  · have hreg := regAt_eq_reference hP hlo hhi
    refine ⟨memReadWith_of_regAt hreg s, fun hne => (memWriteWith_of_regAt hreg _ s v).trans ?_⟩
    exact writeReg_of_ne_cmd (mt eq_cmdAddr_of_regAt hne) _ _ v s

/-- Settles O50: each address by its row, and the codes by the values of each field. -/
theorem registerMapReads : Obligations.RegisterMapReads := by
  intro s
  refine ⟨fun g hg => ⟨memReadWith_of_regAt (regAt_ofNat_raw params_ok hg) s,
      memReadWith_parSlot params_ok hg s⟩,
    fun i hi => memReadWith_of_regAt (regAt_ofNat_record params_ok hi) s, ?_,
    memReadWith_of_regAt regAt_cmd s, ?_, ?_, ?_, ?_, ?_, ?_, memReadWith_of_regAt regAt_dvFmt s,
    memReadWith_of_regAt regAt_dvMfr s, ?_, memReadWith_of_regAt regAt_dvLen s,
    memReadWith_of_regAt regAt_dvTerm s⟩
  · exact highByte_append_lowByte s.rawNbits
  · refine (congrArg BitVec.toNat (memRead_status s)).trans ((toNat_statusByte s).trans ?_)
    cases s.seq <;> rfl
  · refine (memRead_cmdRes s).trans ?_
    cases s.cmdRes <;> rfl
  · refine (memRead_vres s).trans ?_
    cases s.vres <;> rfl
  · exact highByte_append_lowByte s.ebl
  · exact highByte_append_lowByte s.crc
  · refine (memRead_dvKind s).trans ?_
    cases s.dvKind <;> rfl
  · exact (memRead_dvFlags s).trans (zeroExtend_ofBool s.mfrKnown)

/-- Settles O53: a write to a latch is seen at its register alone, and no two addresses share one. -/
theorem latchWritesReadBack : Obligations.LatchWritesReadBack := by
  intro s a v ha
  have hlatch := regAt_isLatch ha
  obtain ⟨t, ht, hframe, hread, hother⟩ := writeReg_of_isLatch hlatch exec v s
  refine ⟨t, ht, hframe, hread.trans (stored_regAt ha v), fun b hb => hother _ fun hreg => ?_⟩
  rcases regAt_injective a b hreg.symm with hab | hreserved
  · exact hb hab.symm
  · rw [hreserved] at hlatch
    cases hlatch

/-- Settles O54: the two writes, and 0x0171 bits are over the capacity. -/
theorem rawNbitsIsWrittenInTwoBytes : Obligations.RawNbitsIsWrittenInTwoBytes := by
  intro s v
  refine ⟨memWrite_rawNbitsLo s v, memWrite_rawNbitsHi s v, fun hn => ?_⟩
  have hvalue : highByte s.rawNbits ++ (0x71 : Byte) = (0x0171 : Half) := by
    rw [hn]
    rfl
  refine ⟨_, _, memWrite_rawNbitsLo s 0x71, hvalue, reframeWith_of_lt ?_, rfl⟩
  show 264 < (highByte s.rawNbits ++ (0x71 : Byte)).toNat
  rw [hvalue]
  decide

end Sys2Proof.Machine
end

section
/-! The host programs' statements (30_encoding.md R72): loading the count, reading a word, and loading the latches. -/

namespace Sys2Proof.Machine

/-! A run serves the first access and goes on (log 1). -/

theorem runSteps_write {s u : State} {a : Addr} {v : Byte} {rest : List BusEvent}
    (h : memWrite { s with pending := rest } a v = .next u) (n : Nat) :
    runSteps (n + 1) { s with pending := hostWr a v :: rest } = runSteps n u := by
  have hstep : step { s with pending := hostWr a v :: rest } = .next u := (step_write rfl).trans h
  rw [runSteps, hstep, andThen]

/-- What the host reads depends on none of its own fields. -/
theorem memRead_set_host (s : State) (pending : List BusEvent) (reads : List Byte) (a : Addr) :
    memRead { s with pending := pending, reads := reads } a = memRead s a := by
  rw [memRead_eq, memRead_eq]
  cases regAt Config.params a <;> rfl

theorem runSteps_read {s : State} {a : Addr} {v : Byte} (h : memRead s a = v) (rest : List BusEvent)
    (n : Nat) :
    runSteps (n + 1) { s with pending := hostRd a :: rest }
      = runSteps n { s with pending := rest, reads := s.reads ++ [v] } := by
  rw [runSteps, step_read rfl, andThen, memRead_set_host s _ s.reads, h]

/-! The arrays after successive writes. -/

/-- The bytes of a list written at `k`, `k + 1`, ... -/
def Memory.writeFrom (m : Memory) (k : Nat) : List Byte → Memory
  | [] => m
  | v :: vs => Memory.writeFrom (Memory.write m k v) (k + 1) vs

theorem Memory.read_writeFrom (m : Memory) (k g : Nat) (vs : List Byte) :
    Memory.read (Memory.writeFrom m k vs) g
      = if k ≤ g ∧ g < k + vs.length then vs.getD (g - k) 0 else Memory.read m g := by
  induction vs generalizing m k with
  | nil => rw [Memory.writeFrom, if_neg (by simp)]
  | cons v vs ih =>
    rw [Memory.writeFrom, ih, List.length_cons]
    rcases lt_trichotomy g k with hlt | rfl | hgt
    · rw [if_neg (by omega), if_neg (by omega), Memory.read_write_other _ _ (by omega)]
    · rw [if_neg (by omega), if_pos (by omega), Memory.read_write_same, Nat.sub_self, List.getD_cons_zero]
    · have hidx : g - k = (g - (k + 1)) + 1 := by omega
      rw [hidx, List.getD_cons_succ, Memory.read_write_other _ _ (by omega)]
      exact if_congr (by omega) rfl rfl

/-! The latches of RAW and PAR, written from one on (30_encoding.md R72). -/

theorem ofNat_addr_succ (n : Nat) : (BitVec.ofNat 8 n : Addr) + 1 = BitVec.ofNat 8 (n + 1) :=
  (BitVec.ofNat_add n 1).symm

theorem memWrite_ofNat_raw {g : Nat} (hg : g < 33) (s : State) (v : Byte) :
    memWrite s (BitVec.ofNat 8 g) v = .next { s with raw := Memory.write s.raw g v } :=
  memWriteWith_of_regAt (regAt_ofNat_raw params_ok hg) exec s v

theorem memWrite_ofNat_par {g : Nat} (hg : g < 33) (s : State) (v : Byte) :
    memWrite s (BitVec.ofNat 8 (0x40 + g)) v
      = .next { s with par := Memory.write s.par g (v &&& 0x01) } :=
  memWriteWith_of_regAt (regAt_ofNat_par params_ok hg) exec s v

theorem runSteps_storeFrom_raw (bytes : List Byte) (k : Nat) (s : State) (rest : List BusEvent)
    (h : k + bytes.length ≤ 33) :
    runSteps bytes.length { s with pending := storeFrom (BitVec.ofNat 8 k) bytes ++ rest }
      = .next { s with raw := Memory.writeFrom s.raw k bytes, pending := rest } := by
  induction bytes generalizing k s with
  | nil => rfl
  | cons v vs ih =>
    rw [List.length_cons] at h
    refine (runSteps_write (s := s) (memWrite_ofNat_raw (g := k) (by omega) _ v) _).trans ?_
    rw [ofNat_addr_succ]
    exact ih (k + 1) { s with raw := Memory.write s.raw k v } (by omega)

theorem runSteps_storeFrom_par (bytes : List Byte) (k : Nat) (s : State) (rest : List BusEvent)
    (h : k + bytes.length ≤ 33) :
    runSteps bytes.length { s with pending := storeFrom (BitVec.ofNat 8 (0x40 + k)) bytes ++ rest }
      = .next { s with par := Memory.writeFrom s.par k (bytes.map (· &&& 0x01)), pending := rest } := by
  induction bytes generalizing k s with
  | nil => rfl
  | cons v vs ih =>
    rw [List.length_cons] at h
    refine (runSteps_write (s := s) (memWrite_ofNat_par (g := k) (by omega) _ v) _).trans ?_
    rw [ofNat_addr_succ]
    exact ih (k + 1) { s with par := Memory.write s.par k (v &&& 0x01) } (by omega)

/-- The bit LOADPAR leaves in a latch: bit 0 of the byte it writes for it. -/
theorem getLsbD_getD_map_ofBool (bits : List Bool) (g : Nat) :
    (((bits.map fun b => (BitVec.ofBool b).zeroExtend 8).map (· &&& (0x01 : Byte))).getD g 0).getLsbD 0
      = bits.getD g false := by
  induction bits generalizing g with
  | nil => simp
  | cons b bits ih =>
    cases g with
    | zero =>
      have hbit : ∀ b : Bool, ((BitVec.ofBool b).zeroExtend 8 &&& (0x01 : Byte)).getLsbD 0 = b := by decide
      exact hbit b
    | succ g => exact ih g

/-! The statements. -/

/-- Settles O55: the two halves of the count, and the two halves of EBL. -/
theorem hostSetsTheCountAndReadsWords : Obligations.HostSetsTheCountAndReadsWords := by
  refine ⟨fun s v rest => ?_, fun s rest => ⟨lowByte s.ebl, highByte s.ebl, ?_,
    highByte_append_lowByte s.ebl⟩⟩
  · have hlo := memWrite_rawNbitsLo { s with pending := hostWr 0x81 (highByte v) :: rest } (lowByte v)
    have hhi := memWrite_rawNbitsHi
      { s with rawNbits := highByte s.rawNbits ++ lowByte v, pending := rest } (highByte v)
    rw [lowByte_append, highByte_append_lowByte] at hhi
    exact (runSteps_write (s := s) hlo 1).trans
      (runSteps_write (s := { s with rawNbits := highByte s.rawNbits ++ lowByte v }) hhi 0)
  · have hlo : memRead s 0x88 = lowByte s.ebl := memReadWith_of_regAt regAt_eblLo s
    have hhi : memRead { s with reads := s.reads ++ [lowByte s.ebl] } 0x89 = highByte s.ebl :=
      memReadWith_of_regAt regAt_eblHi _
    rw [← List.singleton_append (l := [highByte s.ebl]), ← List.append_assoc]
    exact (runSteps_read hlo (hostRd 0x89 :: rest) 1).trans (runSteps_read hhi rest 0)

/-- Settles O56: the bytes land in the latches one after the other, and LOADPAR's are bits. -/
theorem hostLoadsTheLatches : Obligations.HostLoadsTheLatches := by
  refine ⟨fun s bytes rest hlen => ⟨_, runSteps_storeFrom_raw bytes 0 s rest (by omega), rfl, fun g => ?_⟩,
    fun s bits rest hlen => ?_⟩
  · rw [Memory.read_writeFrom]
    simp
  · have hrun := runSteps_storeFrom_par (bits.map fun b => (BitVec.ofBool b).zeroExtend 8) 0 s rest
      (by rw [List.length_map]; omega)
    rw [List.length_map] at hrun
    refine ⟨_, hrun, rfl, fun g => ?_⟩
    rw [Memory.read_writeFrom, apply_ite (BitVec.getLsbD · 0), Nat.sub_zero, getLsbD_getD_map_ofBool]
    simp

end Sys2Proof.Machine
end
